-- ==== Sys2Proof/Word.lean ====
section
/-! DEFINITION. The word types of the block (00_scope.md R5, R6, R7, R16, R17; 30_encoding.md R75), and the type of
floating-point values the numeric primitives compute with. -/

namespace Sys2Proof

/-- A 32-bit pattern read as an IEEE 754 binary32 value (00_scope.md R7): a vector component or a table entry. -/
abbrev F32 := BitVec 32

/-- A 16-bit code (00_scope.md R17, 30_encoding.md R70). -/
abbrev Code := BitVec 16

/-- A 13-bit index of the lookup table (20_memory.md R50). -/
abbrev LutIndex := BitVec 13

/-- A 114-bit request word (30_encoding.md R75). -/
abbrev Request := BitVec 114

/-- A `Vector` of 00_scope.md R16: an ordered triple of binary32 patterns. -/
structure Vec3 where
  x : F32
  y : F32
  z : F32
deriving DecidableEq, Repr

/-- The shape of an IEEE 754 interchange format: the widths of its exponent and fraction fields (00_scope.md R7). -/
structure FpFormat where
  expBits  : Nat
  fracBits : Nat
deriving DecidableEq, Repr

/-- A floating-point value: what a pattern denotes. All NaNs are one value here, because no rule reads the sign or
payload of a NaN that an operation returned; the pattern of such a NaN is a free value, chosen where the value is
turned back into a pattern. `fin neg m e` is `±m · 2^e`; a zero keeps its sign and has `m = 0`. -/
inductive Fp where
  | nan
  | inf (neg : Bool)
  | fin (neg : Bool) (m : Nat) (e : Int)
deriving DecidableEq, Repr

end Sys2Proof
end

