-- ==== Sys2Proof/Syntax.lean ====
section
/-! DEFINITION. The commands and the responses of the block (30_encoding.md R78, R81). -/

namespace Sys2Proof

/-- A command with the operand fields it uses (30_encoding.md R77, R78). The fields it ignores are not kept: their value
changes nothing (R77; log 13). -/
inductive Instr where
  /-- PACK, op 00: the vector to encode (41_encoder.md R110). -/
  | pack (x y z : F32)
  /-- UNPACK, op 01: the code to decode (42_decoder.md R130). -/
  | unpack (inCode : Code)
  /-- BUILD_LUT, op 10 (40_lut_builder.md R96). -/
  | buildLut
  /-- LUT_READ, op 11: bits 12:0 of `inCode` are the index (40_lut_builder.md R97). -/
  | lutRead (inCode : Code)
deriving DecidableEq, Repr

/-- A response, tagged by the command that produced it (30_encoding.md R81). -/
inductive Response where
  | code (c : Code)
  | vec (v : Vec3)
  | done
  | word (w : F32)
deriving DecidableEq, Repr

end Sys2Proof
end

