-- ==== Sys2Proof/WellFormed.lean ====
section
/-! DEFINITION. Which terms are well formed. Every request word is legal and every value of every operand field is legal
(30_encoding.md R74, R77, R82), so every `Instr` is well formed. What can be ill formed is a NUMBER offered where a word
is wanted: one too wide for a request, or for an operand of the textual form (30_encoding.md R75, R84). -/

namespace Sys2Proof

/-- Every instruction is legal (30_encoding.md R82). -/
def Instr.wellFormed : Instr → Bool
  | .pack _ _ _ => true
  | .unpack _ => true
  | .buildLut => true
  | .lutRead _ => true

/-- A number is a request word exactly if it fits its 114 bits (30_encoding.md R75, R83). -/
def wellFormedRequest (w : Nat) : Bool := decide (w < 2 ^ 114)

/-- `<code>` and `<index>` of the textual form are unsigned integers in [0, 65535] (30_encoding.md R84). -/
def wellFormedCodeOperand (n : Nat) : Bool := decide (n ≤ 65535)

end Sys2Proof
end

