-- ==== Sys2Proof/Decode.lean ====
section
/-! DEFINITION. Decoding and encoding of request words (30_encoding.md R75 to R78, opcode_table.json). -/

namespace Sys2Proof

/-! ## The fields of a request word (30_encoding.md R75) -/

/-- in_x, bits 111:80. -/
def fieldX (w : Request) : F32 := w.extractLsb' 80 32
/-- in_y, bits 79:48. -/
def fieldY (w : Request) : F32 := w.extractLsb' 48 32
/-- in_z, bits 47:16. -/
def fieldZ (w : Request) : F32 := w.extractLsb' 16 32
/-- in_code, bits 15:0. -/
def fieldCode (w : Request) : Code := w.extractLsb' 0 16

/-- The instruction of a request word: op, bits 113:112, selects the command (30_encoding.md R78), and its operands enter
unchanged (R76). Total: no request is illegal (R82). -/
def decode (w : Request) : Instr :=
  match w.getLsbD 113, w.getLsbD 112 with
  | false, false => .pack (fieldX w) (fieldY w) (fieldZ w)
  | false, true  => .unpack (fieldCode w)
  | true,  false => .buildLut
  | true,  true  => .lutRead (fieldCode w)

/-- Why a number is not decoded. -/
inductive DecodeError where
  /-- The number has a bit above bit 113: it is no request word (30_encoding.md R75, R83). Safe: such a thing cannot be
  offered to the block. -/
  | notARequestWord
deriving DecidableEq, Repr

/-- The request word a number stands for, if it is one. -/
def requestOfNat (w : Nat) : Except DecodeError Request :=
  if wellFormedRequest w then .ok (BitVec.ofNat 114 w) else .error .notARequestWord

/-- Decoding of a number, total on every number, rejecting by name. -/
def decodeNat (w : Nat) : Except DecodeError Instr :=
  match requestOfNat w with
  | .ok r => .ok (decode r)
  | .error e => .error e

/-- The instruction the decoder reads from an instruction whose bits are `w`. A request is one word, its bits numbered
as 30_encoding.md R75 numbers them; it is handed over whole, so no byte order enters (20_memory.md R54). Bits of the
request at and above `nbits` are 0 in `w` itself. Log 12. -/
def decodeTableWord (_nbits w : Nat) : Option Instr :=
  match decodeNat w with
  | .ok i => some i
  | .error _ => none

/-! ## The encoder -/

/-- The five fields side by side (30_encoding.md R75). -/
def requestWord (op : BitVec 2) (x y z : F32) (code : Code) : Request := op ++ x ++ y ++ z ++ code

/-- The request word of an instruction, every ignored field 0. -/
def encode : Instr → Request
  | .pack x y z => requestWord 0b00#2 x y z 0#16
  | .unpack c   => requestWord 0b01#2 0#32 0#32 0#32 c
  | .buildLut   => requestWord 0b10#2 0#32 0#32 0#32 0#16
  | .lutRead c  => requestWord 0b11#2 0#32 0#32 0#32 c

/-- The bits of the request that an instruction ignores (30_encoding.md R77). -/
def ignoredBits : Instr → Request
  | .pack _ _ _ => requestWord 0b00#2 0#32 0#32 0#32 (BitVec.allOnes 16)
  | .unpack _   => requestWord 0b00#2 (BitVec.allOnes 32) (BitVec.allOnes 32) (BitVec.allOnes 32) 0#16
  | .buildLut   =>
    requestWord 0b00#2 (BitVec.allOnes 32) (BitVec.allOnes 32) (BitVec.allOnes 32) (BitVec.allOnes 16)
  | .lutRead _  => requestWord 0b00#2 (BitVec.allOnes 32) (BitVec.allOnes 32) (BitVec.allOnes 32) 0#16

/-- A request word of an instruction whose ignored fields hold the bits of `filler` (30_encoding.md R77: "may hold any
value"). -/
def encodeWith (filler : Request) (i : Instr) : Request := (filler &&& ignoredBits i) ||| encode i

/-! ## The opcode table (opcode_table.json) -/

/-- One row of the opcode table: a word is the row's if its bits under `mask` are `bits`. -/
structure OpcodeRow where
  mnemonic : String
  bits : Request
  mask : Request
deriving DecidableEq, Repr

/-- The mask of every row: bits 113:112. -/
def opMask : Request := 0x30000000000000000000000000000#114

/-- The rows of opcode_table.json, in its order. -/
def opcodeTable : List OpcodeRow :=
  [ { mnemonic := "PACK",      bits := 0x00000000000000000000000000000#114, mask := opMask },
    { mnemonic := "UNPACK",    bits := 0x10000000000000000000000000000#114, mask := opMask },
    { mnemonic := "BUILD_LUT", bits := 0x20000000000000000000000000000#114, mask := opMask },
    { mnemonic := "LUT_READ",  bits := 0x30000000000000000000000000000#114, mask := opMask } ]

/-- The row of an instruction. -/
def rowOf : Instr → OpcodeRow
  | .pack _ _ _ => { mnemonic := "PACK",      bits := 0x00000000000000000000000000000#114, mask := opMask }
  | .unpack _   => { mnemonic := "UNPACK",    bits := 0x10000000000000000000000000000#114, mask := opMask }
  | .buildLut   => { mnemonic := "BUILD_LUT", bits := 0x20000000000000000000000000000#114, mask := opMask }
  | .lutRead _  => { mnemonic := "LUT_READ",  bits := 0x30000000000000000000000000000#114, mask := opMask }

end Sys2Proof
end

