-- ==== Sys2Proof/Config.lean ====
section
/-! DEFINITION. What is fixed when the block is instantiated (00_scope.md R5), and the values the spec leaves open. -/

namespace Sys2Proof

/-- The two values of P_PACK_FORMAT and of P_LUT_FORMAT (00_scope.md R5). -/
inductive ArithFormat where
  | binary32
  | binary64
deriving DecidableEq, Repr

/-- The two values of P_PACK_SAT_POLICY (00_scope.md R5). -/
inductive SatPolicy where
  | wrap16
  | mask
deriving DecidableEq, Repr

/-- The values of P_CODE_BYTE_ORDER (00_scope.md R5): which byte of a stored code comes first. DESIGN CHOICE (log 11): the spec
names no values, and a code has two bytes, so these are all the orders there are. -/
inductive ByteOrder where
  | littleEndian
  | bigEndian
deriving DecidableEq, Repr, Inhabited

/-- DESIGN CHOICE (log 11), safe. P_CODE_BYTE_ORDER is OPEN: the spec gives it no default (92_eei_decisions.md D22). This free
value, a constant without a body, stands for it where an instance is wanted that takes the spec's defaults otherwise. -/
opaque Config.codeByteOrder : ByteOrder

/-- The parameters an instance of the block is built with (00_scope.md R5), all four of them: configuration, not state
(10_state.md R43). Log 1. -/
structure Params where
  packFormat : ArithFormat
  lutFormat  : ArithFormat
  satPolicy  : SatPolicy
  /-- P_CODE_BYTE_ORDER, OPEN: the byte order of a code stored outside the block. No rule reads it (00_scope.md R4(e), R5;
  20_memory.md R54), and no operation of this model does. -/
  codeByteOrder : ByteOrder
deriving DecidableEq, Repr

/-- The spec's defaults (00_scope.md R5); the OPEN parameter, which has none, is the free value. -/
def Params.default : Params :=
  { packFormat := .binary32, lutFormat := .binary32, satPolicy := .wrap16, codeByteOrder := Config.codeByteOrder }

/-! The constants of 00_scope.md R5. -/

/-- N_LUT. -/
def nLut : Nat := 8192
/-- W_SCALE. -/
def wScale : Nat := 126
/-- FOLD_K. -/
def foldK : Nat := 127
/-- ENC_FOLD_T. -/
def encFoldT : Nat := 64
/-- DEC_FOLD_T. -/
def decFoldT : Nat := 127

/-! Free values: constants without a body, so that no proof can depend on what they are. -/

/-- DESIGN CHOICE (log 3), safe. The pattern that entry `i` of the table holds after the `r`-th reset until the build
writes it: "any 32-bit pattern, possibly different per entry and per reset" (10_state.md R42). -/
opaque Config.unwrittenLutEntry (r i : Nat) : F32

/-- DESIGN CHOICE (log 9), safe. The bits of the NaN that a binary32 operation on two patterns returns: 00_scope.md R9
says only that the result is NaN. `Machine.nanPattern` makes a NaN of it. -/
opaque Config.nanDraw (a b : F32) : F32

end Sys2Proof
end

