-- ==== Sys2Proof/Machine/Flags.lean ====
section
/-! DEFINITION. The block has no flags and no condition codes, and no command sets or reads one (10_state.md R36). What
the spec calls flags are the three sign flags inside a code, data fields of the code (30_encoding.md R70, R71). -/

namespace Sys2Proof.Machine

/-- `sx(c)`, bit 15: x is negative. -/
def signX (c : Code) : Bool := c.getLsbD 15

/-- `sy(c)`, bit 14: y is negative. -/
def signY (c : Code) : Bool := c.getLsbD 14

/-- `sz(c)`, bit 13: z is negative. -/
def signZ (c : Code) : Bool := c.getLsbD 13

/-- The mask of sx (30_encoding.md R70). -/
def signMaskX : Code := 0x8000#16
/-- The mask of sy. -/
def signMaskY : Code := 0x4000#16
/-- The mask of sz. -/
def signMaskZ : Code := 0x2000#16

/-- The sign flags of three truth values, as a code with zero magnitude. -/
def signBits (nx ny nz : Bool) : Code :=
  (if nx then signMaskX else 0#16) ||| (if ny then signMaskY else 0#16) ||| (if nz then signMaskZ else 0#16)

end Sys2Proof.Machine
end

