-- ==== Sys2Proof/Machine/Float.lean ====
section
/-! DEFINITION. The numeric primitives of 00_scope.md R9 to R15: IEEE 754 arithmetic in binary32 and binary64, correctly
rounded with roundTiesToEven, subnormals kept, no exception flags. Each operation computes its exact result (or enough
of its bits with a sticky bit) and rounds once (R15). The special operands follow IEEE 754 (log 10).

The spec's names: `fadd32`, `fdiv32`, `fsqrt32` are `fpAdd`, `fpDiv`, `fpSqrt` at `binary32`, `fadd64`, `fmul64`, `fdiv64`,
`fsqrt64` the same at `binary64`; `fmul32` is `fpMul binary32` on values and `fmul32` on patterns; `f32to64` is
`fpConvert binary64`, `f64to32` is `fpConvert binary32`; `i2f32` and `i2f64` are `fpOfInt`; `flt32` is `fpLt`. -/

namespace Sys2Proof.Machine

/-! ## The formats (00_scope.md R7) -/

/-- IEEE 754 binary32: 8 exponent bits, 23 fraction bits. -/
def binary32 : FpFormat := { expBits := 8, fracBits := 23 }

/-- IEEE 754 binary64: 11 exponent bits, 52 fraction bits. -/
def binary64 : FpFormat := { expBits := 11, fracBits := 52 }

/-- The format a parameter value names. -/
def formatOf : ArithFormat → FpFormat
  | .binary32 => binary32
  | .binary64 => binary64

/-- The significand's width, the hidden bit included. -/
def fpPrec (F : FpFormat) : Nat := F.fracBits + 1

/-- The exponent bias. -/
def fpBias (F : FpFormat) : Nat := 2 ^ (F.expBits - 1) - 1

/-- The least exponent of a last place: that of the subnormals. -/
def fpQmin (F : FpFormat) : Int := -((fpBias F + F.fracBits - 1 : Nat) : Int)

/-- The greatest exponent of a last place. -/
def fpQmax (F : FpFormat) : Int := ((fpBias F - F.fracBits : Nat) : Int)

/-- A value that the format represents, in the one form this model keeps it in: below `2^prec`, and with a full
significand unless the exponent is the least one. -/
def fpCanonical (F : FpFormat) : Fp → Bool
  | .nan => true
  | .inf _ => true
  | .fin _ m e =>
    decide (m < 2 ^ fpPrec F ∧ fpQmin F ≤ e ∧ e ≤ fpQmax F ∧ (2 ^ (fpPrec F - 1) ≤ m ∨ e = fpQmin F))

/-- The real number a finite value denotes (0 for the others). For statements; no operation computes with it. -/
def fpValue : Fp → ℚ
  | .nan => 0
  | .inf _ => 0
  | .fin neg m e => (if neg then -1 else 1) * (m : ℚ) * (2 : ℚ) ^ e

/-- Whether a value is finite. -/
def fpIsFinite : Fp → Bool
  | .nan => false
  | .inf _ => false
  | .fin _ _ _ => true

/-! ## Rounding (00_scope.md R9) -/

/-- The number of binary digits of `n`. -/
def bitLen (n : Nat) : Nat := if n = 0 then 0 else n.log2 + 1

/-- A rounded significand `m` at exponent `q`: a carry out of the significand moves to the next exponent, and a result
too large to represent is an infinity. -/
def fpFinish (F : FpFormat) (neg : Bool) (m : Nat) (q : Int) : Fp :=
  if m = 2 ^ fpPrec F then
    (if fpQmax F < q + 1 then .inf neg else .fin neg (2 ^ (fpPrec F - 1)) (q + 1))
  else if fpQmax F < q then .inf neg
  else .fin neg m q

/-- The exponent of the last place that the format gives to `m · 2^e`. -/
def fpLastPlace (F : FpFormat) (m : Nat) (e : Int) : Int := max (fpQmin F) (e + bitLen m - fpPrec F)

/-- `±m · 2^e`, rounded to the format with roundTiesToEven. -/
def fpRound (F : FpFormat) (neg : Bool) (m : Nat) (e : Int) : Fp :=
  if m = 0 then .fin neg 0 (fpQmin F)
  else
    let q := fpLastPlace F m e
    if q ≤ e then fpFinish F neg (m * 2 ^ (e - q).toNat) q
    else
      let d := 2 ^ (q - e).toNat
      let t := m / d
      let r := 2 * (m % d)
      if d < r ∨ (r = d ∧ t % 2 = 1) then fpFinish F neg (t + 1) q else fpFinish F neg t q

/-- A truncated result with one more place that says whether something was cut off. Where the format drops two or more
places of it, it rounds as the exact result does. -/
def stickyBit (t : Nat) (inexact : Bool) : Nat := 2 * t + (if inexact then 1 else 0)

/-- `±(num / den) · 2^e` for `0 < den`, rounded once. -/
def fpRoundQuotient (F : FpFormat) (neg : Bool) (num den : Nat) (e : Int) : Fp :=
  let k := fpPrec F + 2 + bitLen den
  let n := num * 2 ^ k
  fpRound F neg (stickyBit (n / den) (n % den != 0)) (e - k - 1)

/-- Newton's iteration for the integer square root, from a first guess that is not below it. -/
def isqrtFrom (n : Nat) : Nat → Nat → Nat
  | 0, x => x
  | fuel + 1, x =>
    let y := (x + n / x) / 2
    if x ≤ y then x else isqrtFrom n fuel y

/-- The integer square root, rounded down. -/
def isqrt (n : Nat) : Nat :=
  let x := 2 ^ (n.log2 / 2 + 1)
  isqrtFrom n x x

/-! ## The operations (00_scope.md R9, R10) -/

/-- The significand of `±m · 2^e` at the exponent `q ≤ e`, signed. -/
def signedAt (neg : Bool) (m : Nat) (e q : Int) : Int :=
  let n : Int := ((m * 2 ^ (e - q).toNat : Nat) : Int)
  if neg then -n else n

/-- Addition. The exact sum zero is +0 unless both operands are negative. -/
def fpAdd (F : FpFormat) : Fp → Fp → Fp
  | .nan, _ => .nan
  | .inf _, .nan => .nan
  | .fin _ _ _, .nan => .nan
  | .inf na, .inf nb => if na = nb then .inf na else .nan
  | .inf na, .fin _ _ _ => .inf na
  | .fin _ _ _, .inf nb => .inf nb
  | .fin na ma ea, .fin nb mb eb =>
    let q := min ea eb
    let s := signedAt na ma ea q + signedAt nb mb eb q
    if s = 0 then .fin (na && nb) 0 (fpQmin F) else fpRound F (decide (s < 0)) s.natAbs q

/-- Multiplication. -/
def fpMul (F : FpFormat) : Fp → Fp → Fp
  | .nan, _ => .nan
  | .inf _, .nan => .nan
  | .fin _ _ _, .nan => .nan
  | .inf na, .inf nb => .inf (na ^^ nb)
  | .inf na, .fin nb mb _ => if mb = 0 then .nan else .inf (na ^^ nb)
  | .fin na ma _, .inf nb => if ma = 0 then .nan else .inf (na ^^ nb)
  | .fin na ma ea, .fin nb mb eb => fpRound F (na ^^ nb) (ma * mb) (ea + eb)

/-- Division. -/
def fpDiv (F : FpFormat) : Fp → Fp → Fp
  | .nan, _ => .nan
  | .inf _, .nan => .nan
  | .fin _ _ _, .nan => .nan
  | .inf _, .inf _ => .nan
  | .inf na, .fin nb _ _ => .inf (na ^^ nb)
  | .fin na _ _, .inf nb => .fin (na ^^ nb) 0 (fpQmin F)
  | .fin na ma ea, .fin nb mb eb =>
    if mb = 0 then (if ma = 0 then .nan else .inf (na ^^ nb))
    else fpRoundQuotient F (na ^^ nb) ma mb (ea - eb)

/-- Square root. -/
def fpSqrt (F : FpFormat) : Fp → Fp
  | .nan => .nan
  | .inf neg => if neg then .nan else .inf false
  | .fin neg m e =>
    if m = 0 then .fin neg 0 (fpQmin F)
    else if neg then .nan
    else
      let k := 2 * (fpPrec F + 2) + (e % 2).toNat
      let n := m * 2 ^ k
      let r := isqrt n
      fpRound F false (stickyBit r (r * r != n)) ((e - k) / 2 - 1)

/-- Negation of a value. -/
def fpNeg : Fp → Fp
  | .nan => .nan
  | .inf neg => .inf (!neg)
  | .fin neg m e => .fin (!neg) m e

/-- The value rounded to another format: exact where it widens (`f32to64`), roundTiesToEven where it narrows
(`f64to32`), NaN staying NaN (00_scope.md R10). -/
def fpConvert (F : FpFormat) : Fp → Fp
  | .nan => .nan
  | .inf neg => .inf neg
  | .fin neg m e => fpRound F neg m e

/-- An integer as a value of the format (00_scope.md R10, R14); 0 gives +0.0. -/
def fpOfInt (F : FpFormat) (n : Int) : Fp := fpRound F (decide (n < 0)) n.natAbs 0

/-- IEEE 754's ordered less-than: false if an operand is a NaN, and `-0.0 < +0.0` is false (00_scope.md R12). -/
def fpLt : Fp → Fp → Bool
  | .nan, _ => false
  | .inf _, .nan => false
  | .fin _ _ _, .nan => false
  | .inf na, .inf nb => na && !nb
  | .inf na, .fin _ _ _ => na
  | .fin _ _ _, .inf nb => !nb
  | .fin na ma ea, .fin nb mb eb =>
    let q := min ea eb
    decide (signedAt na ma ea q < signedAt nb mb eb q)

/-- The magnitude of a finite value, truncated toward zero. -/
def truncMag (m : Nat) (e : Int) : Nat := if 0 ≤ e then m * 2 ^ e.toNat else m / 2 ^ (-e).toNat

/-- `sat_u16` (00_scope.md R13): NaN to 0, truncation toward zero, saturation to [0, 65535]. -/
def satU16 : Fp → BitVec 16
  | .nan => 0#16
  | .inf neg => if neg then 0#16 else 65535#16
  | .fin neg m e =>
    if neg then 0#16
    else if 65535 < truncMag m e then 65535#16
    else BitVec.ofNat 16 (truncMag m e)

/-! ## Patterns (00_scope.md R7) -/

/-- The value of a pattern of the format, given as an unsigned integer: sign, biased exponent, fraction. -/
def fpOfPattern (F : FpFormat) (p : Nat) : Fp :=
  let frac := p % 2 ^ F.fracBits
  let ex := p / 2 ^ F.fracBits % 2 ^ F.expBits
  let neg := p / 2 ^ (F.fracBits + F.expBits) % 2 == 1
  if ex = 2 ^ F.expBits - 1 then (if frac = 0 then .inf neg else .nan)
  else if ex = 0 then .fin neg frac (fpQmin F)
  else .fin neg (2 ^ F.fracBits + frac) (fpQmin F + (ex - 1 : Nat))

/-- The pattern of a canonical value, as an unsigned integer; `nanPat` is the pattern a NaN takes. -/
def fpToPattern (F : FpFormat) (nanPat : Nat) : Fp → Nat
  | .nan => nanPat
  | .inf neg => (if neg then 2 ^ (F.fracBits + F.expBits) else 0) + (2 ^ F.expBits - 1) * 2 ^ F.fracBits
  | .fin neg m e =>
    (if neg then 2 ^ (F.fracBits + F.expBits) else 0)
      + (if m < 2 ^ F.fracBits then m else (e - fpQmin F).toNat * 2 ^ F.fracBits + m)

/-- The value of a binary32 pattern. -/
def ofBits32 (b : F32) : Fp := fpOfPattern binary32 b.toNat

/-- Some NaN made of free bits: exponent all ones, fraction not zero, the rest as drawn. -/
def nanPattern (draw : F32) : F32 :=
  let p := (draw &&& 0x807fffff#32) ||| 0x7f800000#32
  if draw &&& 0x007fffff#32 = 0#32 then p ||| 0x00400000#32 else p

/-- The binary32 pattern of a canonical value; a NaN takes the pattern made of `draw`. -/
def toBits32 (draw : F32) : Fp → F32
  | .nan => nanPattern draw
  | .inf neg => BitVec.ofNat 32 (fpToPattern binary32 0 (.inf neg))
  | .fin neg m e => BitVec.ofNat 32 (fpToPattern binary32 0 (.fin neg m e))

/-- `fneg32`: flip the sign bit of any pattern (00_scope.md R11). -/
def fneg32 (a : F32) : F32 := a ^^^ 0x80000000#32

/-- `fmul32` on patterns (00_scope.md R9); the pattern of a NaN result is a free value of the two operands (log 9). -/
def fmul32 (a b : F32) : F32 := toBits32 (Config.nanDraw a b) (fpMul binary32 (ofBits32 a) (ofBits32 b))

/-- `flt32(v, +0.0)`: "strictly negative" (00_scope.md R12). -/
def strictlyNegative (v : F32) : Bool := fpLt (ofBits32 v) (.fin false 0 (fpQmin binary32))

/-- `i2f32` as a pattern (00_scope.md R14); the conversion gives no NaN, so the draw is not read. -/
def i2f32 (n : Int) : F32 := toBits32 0#32 (fpOfInt binary32 n)

end Sys2Proof.Machine
end

