-- ==== Sys2Proof/Machine/Operands.lean ====
section
/-! DEFINITION. The operand forms: the fields of a code and the index of the table (30_encoding.md R70 to R73, R76, R80).
-/

namespace Sys2Proof.Machine

/-- `xfield(c) = (c & 0x1f80) >> 7` (30_encoding.md R71), in [0, 63]. -/
def xfield (c : Code) : Nat := ((c &&& 0x1f80#16) >>> 7).toNat

/-- `yfield(c) = c & 0x007f` (30_encoding.md R71), in [0, 127]. -/
def yfield (c : Code) : Nat := (c &&& 0x007f#16).toNat

/-- `mindex(c) = c & 0x1fff`, the magnitude index (30_encoding.md R71); for LUT_READ too, which ignores bits 15:13 (R80).
-/
def mindex (c : Code) : LutIndex := c.extractLsb' 0 13

/-- The three classes of the magnitude indices (30_encoding.md R73). -/
inductive CodeClass where
  | unfolded
  | boundary
  | folded
deriving DecidableEq, Repr

/-- The class of a code (30_encoding.md R73). -/
def codeClass (c : Code) : CodeClass :=
  let s := xfield c + yfield c
  if s ≤ 126 then .unfolded else if s = 127 then .boundary else .folded

end Sys2Proof.Machine
end

