-- ==== Sys2Proof/Machine/State.lean ====
section
/-! DEFINITION. The state of the block (10_state.md R43), the reasons a step can stop, and the state after reset. -/

namespace Sys2Proof.Machine

/-- Why the machine stops. -/
inductive Fault where
  /-- A table entry was not finite or not positive at construction (60_exceptions.md R151, code 1). Raised by CheckLut
  inside the build; the block is then stuck until reset, and a step of a stuck block answers this fault
  (60_exceptions.md R153). Safe: the spec says so, and says it is unreachable (R152). -/
  | lutEntryNotFinite
deriving DecidableEq, Repr

/-- Why an instruction has no meaning. -/
inductive Refusal where
  /-- An instruction without a meaning yet, raised by an arm of `exec` only. Safe. No arm of this model does. -/
  | notModelled (mnemonic : String)
deriving DecidableEq, Repr

/-- One cell of the table: an index and the 32-bit word it holds (20_memory.md R50). -/
abbrev LutCell := Nat × F32

/-- The contents of the table storage: the entries that hold a word, by strictly rising index. An entry that is not
listed is unwritten since reset (10_state.md R42's explicit "unwritten" marker). Log 2, log 3. -/
abbrev Memory := List LutCell

/-- What the host and the platform offer the block, one after the other. Log 4. -/
inductive HostEvent where
  /-- The host offers a request (30_encoding.md R75). -/
  | request (w : Request)
  /-- The platform asserts reset between commands (70_reset_and_hazards.md R170). -/
  | reset
  /-- The platform asserts reset while the command of `w` is in progress (70_reset_and_hazards.md R179). -/
  | resetDuring (w : Request)
deriving DecidableEq, Repr

/-- The state of one instance of the block with its host interface. -/
structure State where
  /-- The instance's parameters (00_scope.md R5): configuration that no step writes. Log 1. -/
  params : Params
  /-- `lut` (10_state.md R31). -/
  lut : Memory
  /-- `lut_valid` (10_state.md R32). -/
  lutValid : Bool
  /-- `fault` (10_state.md R33); `none` is the spec's own value. -/
  fault : Option Fault
  /-- The MODEL's own: what is still offered to the block, the next first. Log 4. -/
  inputs : List HostEvent
  /-- The MODEL's own: the responses delivered so far, the oldest first (30_encoding.md R81). Log 5. -/
  responses : List Response
  /-- The MODEL's own: how many resets the run has seen. Log 6. -/
  resets : Nat
deriving DecidableEq, Repr

/-- The block right after reset, of an instance with the spec's default parameters, nothing offered to it yet
(10_state.md R42, 70_reset_and_hazards.md R170, R171). -/
def State.reset : State :=
  { params := Params.default
    lut := []
    lutValid := false
    fault := none
    inputs := []
    responses := []
    resets := 0 }

end Sys2Proof.Machine
end

