-- ==== Sys2Proof/Machine/Ops.lean ====
section
/-! DEFINITION. The named operations over the state: reading and writing the table storage, delivering a response, raising
the fault and the reset that alone leaves it, and the guard every command starts with. -/

namespace Sys2Proof.Machine

/-! ## The table storage (20_memory.md R50 to R53) -/

/-- Indices strictly rise, from `lo` on, and lie in the index space. -/
def Memory.wfFrom : Nat → Memory → Bool
  | _, [] => true
  | lo, (i, _) :: m => decide (lo ≤ i ∧ i < nLut) && Memory.wfFrom (i + 1) m

/-- The canonical form: indices strictly rise and lie in [0, 8192). An unlisted entry reads as "unwritten", which no word
equals, so no listed entry equals what an unlisted one reads as. -/
def Memory.wf (m : Memory) : Bool := Memory.wfFrom 0 m

/-- The word entry `i` holds; `none` if nothing has been written to it since reset. -/
def Memory.read : Memory → Nat → Option F32
  | [], _ => none
  | (j, v) :: m, i => if i = j then some v else Memory.read m i

/-- `lut[i] <- v` (00_scope.md R8). Only the build writes (20_memory.md R53), and it writes every entry: `buildTable` is
what its loop of these writes leaves (log 14). -/
def Memory.write : Memory → Nat → F32 → Memory
  | [], i, v => [(i, v)]
  | (j, w) :: m, i, v =>
    if i < j then (i, v) :: (j, w) :: m
    else if i = j then (i, v) :: m
    else (j, w) :: Memory.write m i v

/-- `lut[i]` (20_memory.md R52). An unwritten entry holds any pattern, one per entry and per reset (10_state.md R42): a
free value. No command reads one in a reachable state (10_state.md R41). -/
def lutEntry (s : State) (i : LutIndex) : F32 :=
  match s.lut.read i.toNat with
  | some v => v
  | none => Config.unwrittenLutEntry s.resets i.toNat

/-! ## Responses (30_encoding.md R81) -/

/-- `respond(r)`: deliver `r` as the result of the current command (30_encoding.md R81). -/
def respond (r : Response) (s : State) : State := { s with responses := s.responses ++ [r] }

/-! ## The fault and reset (60_exceptions.md R153, R157; 70_reset_and_hazards.md R170) -/

/-- `raise Fault(r)`: the reason is recorded; `lut_valid` stays as it is and no response is delivered. No other state is
saved (60_exceptions.md R153, R156). -/
def raiseFault (r : Fault) (s : State) : State := { s with fault := some r }

/-- The numeric code of a fault reason (60_exceptions.md R151); not visible at the interface. -/
def faultCode : Fault → Nat
  | .lutEntryNotFinite => 1

/-- Reset (70_reset_and_hazards.md R170), the only way out of the faulted state (60_exceptions.md R157): the table is
invalid and its contents are unspecified again; the fault is cleared. The instance's parameters stay (10_state.md R37),
and so does what happened outside the block: the responses already delivered and what is still to be offered. -/
def resetBlock (s : State) : State :=
  { s with lut := [], lutValid := false, fault := none, resets := s.resets + 1 }

/-- A step of the block that ends in `t`, or the fault outcome if the block is stuck (60_exceptions.md R153): "it has no
step except reset". -/
def whenReady (s t : State) : Host.Outcome State Fault Refusal :=
  match s.fault with
  | none => .next t
  | some r => .fault r

/-- The state with `rest` still to be offered. -/
def setInputs (rest : List HostEvent) (s : State) : State := { s with inputs := rest }

end Sys2Proof.Machine
end

