-- ==== Sys2Proof/Machine/LutBuilder.lean ====
section
/-! DEFINITION. The lookup-table builder: the table function, the on-demand build, BUILD_LUT and LUT_READ
(40_lut_builder.md R90 to R99). -/

namespace Sys2Proof.Machine

/-! ## The table function -/

/-- Octant-local coordinates (xb, yb, zb). -/
structure Coords where
  xb : Int
  yb : Int
  zb : Int
deriving DecidableEq, Repr

/-- The fold of the decoder and the builder, and the implied third coordinate (40_lut_builder.md R90; 42_decoder.md
R132, R133). Exact integer arithmetic: zb is -1 for the boundary class. -/
def foldCoords (xb yb : Nat) : Coords :=
  let x : Int := if decFoldT ≤ xb + yb then (foldK : Int) - xb else xb
  let y : Int := if decFoldT ≤ xb + yb then (foldK : Int) - yb else yb
  { xb := x, yb := y, zb := (wScale : Int) - x - y }

/-- `TableCoords(i)` (40_lut_builder.md R90). -/
def tableCoords (i : Nat) : Coords := foldCoords (i / 128) (i % 128)

/-- The sum of squares n (40_lut_builder.md R91), exact. -/
def tableNorm2 (i : Nat) : Nat :=
  let c := tableCoords i
  (c.xb * c.xb + c.yb * c.yb + c.zb * c.zb).toNat

/-- `1 / sqrt(n)` as a binary32 value: two rounded operations in the format P_LUT_FORMAT selects, then for binary64 the
rounding to binary32 (40_lut_builder.md R91). -/
def invSqrt (fmt : ArithFormat) (n : Nat) : Fp :=
  match fmt with
  | .binary32 => fpDiv binary32 (fpOfInt binary32 1) (fpSqrt binary32 (fpOfInt binary32 n))
  | .binary64 =>
    fpConvert binary32 (fpDiv binary64 (fpOfInt binary64 1) (fpSqrt binary64 (fpOfInt binary64 n)))

/-- `TableEntry(i)` (40_lut_builder.md R91). It is never a NaN (R93); were it one, its pattern would be free. -/
def tableEntry (fmt : ArithFormat) (i : Nat) : F32 :=
  toBits32 (Config.nanDraw (BitVec.ofNat 32 i) 0#32) (invSqrt fmt (tableNorm2 i))

/-- The cells of `count` entries from index `i` on. -/
def tableCells (fmt : ArithFormat) : Nat → Nat → Memory
  | 0, _ => []
  | count + 1, i => (i, tableEntry fmt i) :: tableCells fmt count (i + 1)

/-- `BuildTable()` (40_lut_builder.md R92), as the contents of the storage. -/
def buildTable (fmt : ArithFormat) : Memory := tableCells fmt nLut 0

/-! ## The on-demand build -/

/-- The check of one entry (40_lut_builder.md R94): not NaN, not infinite, greater than +0.0. -/
def entryOk (w : F32) : Bool :=
  fpIsFinite (ofBits32 w) && fpLt (.fin false 0 (fpQmin binary32)) (ofBits32 w)

/-- `CheckLut()` (40_lut_builder.md R94): every entry passes. -/
def checkLut : Memory → Bool
  | [] => true
  | (_, w) :: m => entryOk w && checkLut m

/-- The build proper (40_lut_builder.md R95): all 8192 entries are written, then checked, then the table is valid; an entry
that fails the check raises the fault instead. The writes cover the whole index space, so they leave exactly
`BuildTable()` in the storage (log 14). -/
def buildLut (s : State) : State :=
  let t := { s with lut := buildTable s.params.lutFormat }
  if checkLut t.lut then { t with lutValid := true } else raiseFault .lutEntryNotFinite t

/-- `EnsureLut()` (40_lut_builder.md R95): nothing if the table is valid, else the build. -/
def ensureLut (s : State) : State := if s.lutValid then s else buildLut s

/-- The rest of a command that reads the table: `EnsureLut()`, then the response; none if the build faulted
(60_exceptions.md R153). -/
def respondFromTable (answer : State → Response) (s : State) : State :=
  let t := ensureLut s
  match t.fault with
  | none => respond (answer t) t
  | some _ => t

/-! ## The commands -/

/-- BUILD_LUT (40_lut_builder.md R96). -/
def execBuildLut (s : State) : Host.Outcome State Fault Refusal :=
  whenReady s (respondFromTable (fun _ => .done) s)

/-- LUT_READ (40_lut_builder.md R97). -/
def execLutRead (inCode : Code) (s : State) : Host.Outcome State Fault Refusal :=
  whenReady s (respondFromTable (fun t => .word (lutEntry t (mindex inCode))) s)

end Sys2Proof.Machine
end

