-- ==== Sys2Proof/Machine/Decoder.lean ====
section
/-! DEFINITION. The decoder: UNPACK (42_decoder.md R130 to R137). -/

namespace Sys2Proof.Machine

/-- The coordinates of a code: `UnpackFields`, `UnpackFold` and zbits (42_decoder.md R131, R132, R133). -/
def unpackCoords (c : Code) : Coords := foldCoords (xfield c) (yfield c)

/-- `UnpackScale` (42_decoder.md R135): one binary32 multiply per coordinate, whatever P_LUT_FORMAT is. -/
def unpackScale (factor : F32) (k : Coords) : Vec3 :=
  { x := fmul32 factor (i2f32 k.xb), y := fmul32 factor (i2f32 k.yb), z := fmul32 factor (i2f32 k.zb) }

/-- Negation of a component where its sign flag is set. -/
def applySign (neg : Bool) (r : F32) : F32 := if neg then fneg32 r else r

/-- `UnpackSigns` (42_decoder.md R136). -/
def unpackSigns (c : Code) (r : Vec3) : Vec3 :=
  { x := applySign (signX c) r.x, y := applySign (signY c) r.y, z := applySign (signZ c) r.z }

/-- `UnpackWith(T, c)` (42_decoder.md R137): the decoder with an arbitrary table; the factor is read at the raw 13-bit
index (R134). -/
def unpackWith (table : LutIndex → F32) (c : Code) : Vec3 :=
  unpackSigns c (unpackScale (table (mindex c)) (unpackCoords c))

/-- UNPACK (42_decoder.md R130): `UnpackWith(lut, c)` after EnsureLut. -/
def execUnpack (inCode : Code) (s : State) : Host.Outcome State Fault Refusal :=
  whenReady s (respondFromTable (fun t => .vec (unpackWith (lutEntry t) inCode)) s)

end Sys2Proof.Machine
end

