-- ==== Sys2Proof/Machine/Encoder.lean ====
section
/-! DEFINITION. The encoder: PACK (41_encoder.md R110 to R116). -/

namespace Sys2Proof.Machine

/-- What `PackSigns` returns: the sign flags and the three components after it. -/
structure Signed3 where
  signs : Code
  v : Vec3
deriving DecidableEq, Repr

/-- One component of `PackSigns`: a strictly negative one is negated, every other passes unchanged (41_encoder.md R111).
-/
def packMagnitude (v : F32) : F32 := if strictlyNegative v then fneg32 v else v

/-- `PackSigns` (41_encoder.md R111). -/
def packSigns (x y z : F32) : Signed3 :=
  { signs := signBits (strictlyNegative x) (strictlyNegative y) (strictlyNegative z)
    v := { x := packMagnitude x, y := packMagnitude y, z := packMagnitude z } }

/-- A component as an operand of the encoder's arithmetic: itself under binary32, widened under binary64 (41_encoder.md
R112). -/
def packOperand (fmt : ArithFormat) (v : F32) : Fp :=
  match fmt with
  | .binary32 => ofBits32 v
  | .binary64 => fpConvert binary64 (ofBits32 v)

/-- The sum s, left to right (41_encoder.md R112, 00_scope.md R15). -/
def packSum (fmt : ArithFormat) (v : Vec3) : Fp :=
  fpAdd (formatOf fmt) (fpAdd (formatOf fmt) (packOperand fmt v.x) (packOperand fmt v.y)) (packOperand fmt v.z)

/-- The weight `w = 126 / s` (41_encoder.md R112). -/
def packWeight (fmt : ArithFormat) (v : Vec3) : Fp :=
  fpDiv (formatOf fmt) (fpOfInt (formatOf fmt) wScale) (packSum fmt v)

/-- One projection: the product with the weight, converted by `sat_u16` (41_encoder.md R113). -/
def packProjection (fmt : ArithFormat) (a : F32) (v : Vec3) : BitVec 16 :=
  satU16 (fpMul (formatOf fmt) (packOperand fmt a) (packWeight fmt v))

/-- A pair of u16 values. -/
structure Proj where
  xi : BitVec 16
  yi : BitVec 16
deriving DecidableEq, Repr

/-- `PackProject` (41_encoder.md R113); z enters only through s. -/
def packProject (fmt : ArithFormat) (v : Vec3) : Proj :=
  { xi := packProjection fmt v.x v, yi := packProjection fmt v.y v }

/-- `PackFold` (41_encoder.md R114): the subtractions wrap modulo 2^16. -/
def packFold (p : Proj) : Proj :=
  if encFoldT ≤ p.xi.toNat then
    { xi := BitVec.ofNat 16 foldK - p.xi, yi := BitVec.ofNat 16 foldK - p.yi }
  else p

/-- `PackCompose` (41_encoder.md R115 for wrap16, R116 for mask). -/
def packCompose (policy : SatPolicy) (signs : Code) (p : Proj) : Code :=
  match policy with
  | .wrap16 => signs ||| (p.xi <<< 7) ||| p.yi
  | .mask => signs ||| ((p.xi &&& 0x3f#16) <<< 7) ||| (p.yi &&& 0x7f#16)

/-- The code of a vector (41_encoder.md R110). -/
def packCode (params : Params) (x y z : F32) : Code :=
  let a := packSigns x y z
  packCompose params.satPolicy a.signs (packFold (packProject params.packFormat a.v))

/-- PACK (41_encoder.md R110): it reads the operands and the parameters only, and writes no state but its response. -/
def execPack (x y z : F32) (s : State) : Host.Outcome State Fault Refusal :=
  whenReady s (respond (.code (packCode s.params x y z)) s)

end Sys2Proof.Machine
end

