-- ==== Sys2Proof/Machine/Dispatch.lean ====
section
/-! DEFINITION. One arm per command (30_encoding.md R78). -/

namespace Sys2Proof.Machine

def exec (i : Instr) (s : State) : Host.Outcome State Fault Refusal :=
  match i with
  | .pack x y z => Sys2Proof.Machine.execPack x y z s
  | .unpack inCode => Sys2Proof.Machine.execUnpack inCode s
  | .buildLut => Sys2Proof.Machine.execBuildLut s
  | .lutRead inCode => Sys2Proof.Machine.execLutRead inCode s

end Sys2Proof.Machine
end

