-- ==== Sys2Proof/Machine/Step.lean ====
section
/-! DEFINITION. One step of the block, and where an instruction is put so that the next step runs it. -/

namespace Sys2Proof.Machine

/-- One step: the next thing offered to the block. A request is performed completely (70_reset_and_hazards.md R174); a
reset takes the block to the state of R170, whether it falls between commands or cuts one (R179: the command is
abandoned without a response); with nothing offered the block is idle and keeps its state (60_exceptions.md R164). A
stuck block has no step but reset (60_exceptions.md R153): `whenReady`, which `exec`'s meanings begin with too. -/
def step (s : State) : Host.Outcome State Fault Refusal :=
  match s.inputs with
  | [] => whenReady s s
  | .reset :: rest => .next (resetBlock (setInputs rest s))
  | .resetDuring _ :: rest => .next (resetBlock (setInputs rest s))
  | .request w :: rest => exec (decode w) (setInputs rest s)

/-- `s` with the request of bits `w` offered next, so that the next step accepts and performs it. It stands for the host
issuing that request (30_encoding.md R86; log 4). A number that is no request word cannot be offered: `s` is
unchanged. -/
def State.withFetchWord (s : State) (_nbits w : Nat) : State :=
  match requestOfNat w with
  | .ok r => setInputs (.request r :: s.inputs) s
  | .error _ => s

end Sys2Proof.Machine
end

