-- ==== Sys2Proof/Machine/Run.lean ====
section
/-! DEFINITION. Programs and runs (30_encoding.md R86, 70_reset_and_hazards.md R178). -/

namespace Sys2Proof.Machine

/-- A program: the requests one host issues in order, each waiting for its response (30_encoding.md R86). -/
abbrev Program := List Request

/-- The program offered to the block in state `s`, after what is already offered. -/
def offer (p : Program) (s : State) : State := { s with inputs := s.inputs ++ p.map .request }

/-- `n` steps, stopping at the first that gives no next state. -/
def stepMany : Nat → State → Host.Outcome State Fault Refusal
  | 0, s => .next s
  | n + 1, s =>
    match step s with
    | .next t => stepMany n t
    | .fault r => .fault r
    | .refused r => .refused r

/-- The state of R170 for an instance with parameters `p`: nothing offered, nothing answered. -/
def resetWith (p : Params) : State := { State.reset with params := p }

/-- The block's state at the end of a run, as 70_reset_and_hazards.md R178 shows it: the record of 10_state.md R43, without the
contents of `lut` while `lut_valid` is 0, of which R178 says nothing. -/
structure FinalState where
  lut : Option Memory
  lutValid : Bool
  fault : Option Fault
deriving DecidableEq, Repr

/-- The final state of a run that ends in `s`. -/
def finalState (s : State) : FinalState :=
  { lut := if s.lutValid then some s.lut else none, lutValid := s.lutValid, fault := s.fault }

/-- What a run that has ended shows: the responses in order and the final state (70_reset_and_hazards.md R178). -/
structure Observation where
  responses : List Response
  final : FinalState
deriving DecidableEq, Repr

/-- The observation of a run that is in `s` after `issued` commands and that began when `before` responses stood delivered.
None if some command delivered no response or the block reached the faulted state: the run has not ended
(70_reset_and_hazards.md R178). -/
def closeRun (before issued : Nat) (s : State) : Option Observation :=
  if s.responses.length = before + issued ∧ s.fault = none then
    some { responses := s.responses.drop before, final := finalState s }
  else none

/-- The runs of a block in state `s` that is offered `evs`, the first of them going on since `before` responses with
`issued` commands. Every reset begins another run (70_reset_and_hazards.md R178). A reset between commands finds the run
before it ended if every command of it responded; a reset that cuts a command leaves that command, and so its run, without a
response (R179). A block that stops in the faulted state leaves its run not ended, and nothing after it runs. Log 20. -/
def observeFrom (before issued : Nat) (s : State) : List HostEvent → List (Option Observation)
  | [] => [closeRun before issued s]
  | .request w :: evs =>
    match step (setInputs [.request w] s) with
    | .next t => observeFrom before (issued + 1) t evs
    | .fault _ => [none]
    | .refused _ => [none]
  | .reset :: evs =>
    closeRun before issued s ::
      (match step (setInputs [.reset] s) with
       | .next t => observeFrom t.responses.length 0 t evs
       | .fault _ => []
       | .refused _ => [])
  | .resetDuring w :: evs =>
    closeRun before (issued + 1) s ::
      (match step (setInputs [.resetDuring w] s) with
       | .next t => observeFrom t.responses.length 0 t evs
       | .fault _ => []
       | .refused _ => [])

/-- The observations of the runs of an instance with parameters `params`, from reset, that is offered `evs`, in order: none for
a run that has not ended, because it reached the faulted state or was cut by reset (70_reset_and_hazards.md R178, R179). -/
def observeRuns (params : Params) (evs : List HostEvent) : List (Option Observation) :=
  observeFrom 0 0 (resetWith params) evs

/-- The observation of the run of program `p` from reset, for an instance with parameters `params`, that no reset cuts; none if
the run has not ended (70_reset_and_hazards.md R178). -/
def observeRun (params : Params) (p : Program) : Option Observation :=
  match stepMany p.length (offer p (resetWith params)) with
  | .next t => closeRun 0 p.length t
  | .fault _ => none
  | .refused _ => none

end Sys2Proof.Machine
end

