-- ==== Sys2Proof/Safety.lean ====
section
/-! DEFINITION. The terms the claims use: what holds in every reachable state, what a safe block is, what the response to a
command is as a function of the command alone, and what "correctly rounded" means. -/

namespace Sys2Proof.Machine

/-! ## States -/

/-- Entry `i` of the storage is entry `i` of BuildTable(), for every index (10_state.md R40). -/
def TableBuilt (s : State) : Prop :=
  ∀ i, i < nLut → s.lut.read i = some (tableEntry s.params.lutFormat i)

/-- The invariant of every reachable state: the storage is in canonical form, a valid table of a block without a fault is
BuildTable() (10_state.md R40), and a faulted block has no valid table (60_exceptions.md R153). -/
structure Inv (s : State) : Prop where
  wf : s.lut.wf = true
  built : s.fault = none → s.lutValid = true → TableBuilt s
  faulted : s.fault ≠ none → s.lutValid = false

/-- A block that is not stuck (60_exceptions.md R152, R153). -/
def Safe (s : State) : Prop := s.fault = none

/-- The state after a table-reading command of a block that is not stuck: the table is there and valid, and `r` is
delivered (40_lut_builder.md R95). -/
def afterTableCommand (s : State) (r : Response) : State :=
  { s with
    lut := if s.lutValid then s.lut else buildTable s.params.lutFormat
    lutValid := true
    responses := s.responses ++ [r] }

/-- BuildTable() as a function of the index. -/
def tableFn (fmt : ArithFormat) (i : LutIndex) : F32 := tableEntry fmt i.toNat

/-- The response to a command as a function of the instance's parameters and the command alone (10_state.md R41,
41_encoder.md R120, 42_decoder.md R143). -/
def responseOf (params : Params) : Instr → Response
  | .pack x y z => .code (packCode params x y z)
  | .unpack c => .vec (unpackWith (tableFn params.lutFormat) c)
  | .buildLut => .done
  | .lutRead c => .word (tableFn params.lutFormat (mindex c))

/-- The same block in an instance whose platform stores codes in the byte order `o` (00_scope.md R5, P_CODE_BYTE_ORDER). -/
def withCodeByteOrder (o : ByteOrder) (s : State) : State :=
  { s with params := { s.params with codeByteOrder := o } }

/-! ## Patterns, by their bits (00_scope.md R7) -/

/-- The pattern without its sign bit, as a number. -/
def magnitude (v : F32) : Nat := v.toNat % 2 ^ 31

/-- A NaN: exponent all ones, fraction not zero. -/
def isNaNPattern (v : F32) : Bool := decide (0x7f800000 < magnitude v)

/-- An infinity. -/
def isInfPattern (v : F32) : Bool := decide (magnitude v = 0x7f800000)

/-- A zero of either sign. -/
def isZeroPattern (v : F32) : Bool := decide (magnitude v = 0)

/-- "Strictly negative", by the bits: sign bit set, not a zero, not a NaN (00_scope.md R12). -/
def isNegativePattern (v : F32) : Bool := v.getLsbD 31 && !isZeroPattern v && !isNaNPattern v

/-- The sign flags PACK sets for its operands, by the bits. -/
def signsByBits (x y z : F32) : Code :=
  signBits (isNegativePattern x) (isNegativePattern y) (isNegativePattern z)

/-! ## The cases of the encoder (41_encoder.md R117, R118, R122) -/

/-- S_MIN of 41_encoder.md R117, the pattern 0x02fc0001. -/
def sMin : Fp := ofBits32 0x02fc0001#32

/-- No component is NaN. -/
def NoNaN (x y z : F32) : Prop :=
  isNaNPattern x = false ∧ isNaNPattern y = false ∧ isNaNPattern z = false

/-- The sum s of 41_encoder.md R112, for the operands of a command. -/
def sumOf (fmt : ArithFormat) (x y z : F32) : Fp := packSum fmt (packSigns x y z).v

/-- s is finite and not zero (it is then positive). -/
def PositiveFinite (v : Fp) : Prop := fpIsFinite v = true ∧ 0 < fpValue v

/-- The saturated path (41_encoder.md R117). -/
def SaturatedPath (fmt : ArithFormat) (x y z : F32) : Prop :=
  fmt = .binary32 ∧ NoNaN x y z ∧ PositiveFinite (sumOf fmt x y z) ∧ fpValue (sumOf fmt x y z) < fpValue sMin

/-- The ordinary case (41_encoder.md R122). -/
def OrdinaryCase (fmt : ArithFormat) (x y z : F32) : Prop :=
  NoNaN x y z ∧ PositiveFinite (sumOf fmt x y z) ∧
    (fmt = .binary32 → fpValue sMin ≤ fpValue (sumOf fmt x y z))

/-- The projections before the fold, for the operands of a command (41_encoder.md R113). -/
def projectionsOf (fmt : ArithFormat) (x y z : F32) : Proj := packProject fmt (packSigns x y z).v

/-! ## Correct rounding (00_scope.md R9) -/

/-- The least magnitude that roundTiesToEven takes to an infinity. -/
def overflowBound (F : FpFormat) : ℚ := ((2 : ℚ) ^ fpPrec F - 1 / 2) * (2 : ℚ) ^ fpQmax F

/-- `r` is the number `x` rounded to the format with roundTiesToEven: a nearest representable value, the even one of
two; an infinity of `x`'s sign from `overflowBound` on. -/
def RoundsTo (F : FpFormat) (x : ℚ) : Fp → Prop
  | .nan => False
  | .inf neg => overflowBound F ≤ |x| ∧ (neg = true ↔ x < 0)
  | .fin neg m e =>
    fpCanonical F (.fin neg m e) = true ∧ |x| < overflowBound F ∧ (x ≠ 0 → (neg = true ↔ x < 0)) ∧
      ∀ v, fpCanonical F v = true → fpIsFinite v = true →
        |x - fpValue (.fin neg m e)| ≤ |x - fpValue v| ∧
          (|x - fpValue (.fin neg m e)| = |x - fpValue v| →
            fpValue v ≠ fpValue (.fin neg m e) → m % 2 = 0)

/-- `r` is the square root of the positive number `x` rounded to the format with roundTiesToEven: against every other
representable value `v`, the root lies on `r`'s side of the midpoint of the two, or on it if `r` is even. -/
def SqrtRoundsTo (F : FpFormat) (x : ℚ) : Fp → Prop
  | .nan => False
  | .inf _ => False
  | .fin neg m e =>
    fpCanonical F (.fin neg m e) = true ∧ neg = false ∧ 0 < m ∧
      ∀ v, fpCanonical F v = true → fpIsFinite v = true → 0 ≤ fpValue v →
        (fpValue v < fpValue (.fin neg m e) → ((fpValue v + fpValue (.fin neg m e)) / 2) ^ 2 ≤ x) ∧
        (fpValue (.fin neg m e) < fpValue v → x ≤ ((fpValue v + fpValue (.fin neg m e)) / 2) ^ 2) ∧
        (x = ((fpValue v + fpValue (.fin neg m e)) / 2) ^ 2 → fpValue v ≠ fpValue (.fin neg m e) → m % 2 = 0)

end Sys2Proof.Machine
end

