-- ==== Sys2Proof/Certificates/Slice0/Obligations.lean ====
section
/-! DEFINITION. The statements for the provers. Each docstring names the rule of spec/ it formalises. -/

open Sys2Proof Sys2Proof.Machine

/-! ## Encoding -/

/-- 30_encoding.md R77: an instruction's word decodes to it whatever the ignored fields hold, with every operand at every
value; and every request word is the word of the instruction it decodes to, with what the word itself holds in the ignored
fields. -/
def Obligations.DecodeInvertsEncodeForAnyIgnoredBits : Prop :=
  (∀ (i : Instr) (filler : Request), i.wellFormed = true → decode (encodeWith filler i) = i) ∧
  (∀ w : Request, encodeWith w (decode w) = w)

/-- 30_encoding.md R75, R78 on the request words of 95_test_vectors.md section 5 and section 1.3. -/
def Obligations.RequestWordsOfTheSpecDecode : Prop :=
  decode 0x03f80000000000000000000000000#114 = .pack 0x3f800000#32 0#32 0#32 ∧
  decode 0x03f8000000000000000000000ffff#114 = .pack 0x3f800000#32 0#32 0#32 ∧
  decode 0x03e88d6773f08d6773f4d419a0000#114 = .pack 0x3e88d677#32 0x3f08d677#32 0x3f4d419a#32 ∧
  decode 0x1ffffffffffffffffffffffff00ff#114 = .unpack 0x00ff#16 ∧
  decode 0x2ffffffffffffffffffffffffffff#114 = .buildLut ∧
  decode 0x3123456780000000000000000152a#114 = .lutRead 0x152a#16

/-- 30_encoding.md R72: the magnitude index is the two fields side by side, and a code is its sign flags and its magnitude
index. -/
def Obligations.CodeIsSignsAndMagnitudeIndex : Prop :=
  ∀ c : Code,
    (mindex c).toNat = 128 * xfield c + yfield c ∧ xfield c ≤ 63 ∧ yfield c ≤ 127 ∧
      c = signBits (signX c) (signY c) (signZ c) ||| (mindex c).setWidth 16

/-! ## Steps, reset and the faulted state -/

/-- A step runs the decoded instruction: with a request next, the step is `exec` of the instruction it decodes to, at the
state without that request. -/
def Obligations.StepRunsTheDecodedRequest : Prop :=
  ∀ (s : State) (w : Request) (rest : List HostEvent), s.inputs = .request w :: rest →
    (decode w).wellFormed = true ∧ step s = exec (decode w) { s with inputs := rest }

/-- 60_exceptions.md R164: between commands the block keeps its state. -/
def Obligations.IdleBlockKeepsItsState : Prop :=
  ∀ s : State, s.inputs = [] → Safe s → step s = .next s

/-- 30_encoding.md R82: no request is refused, in any state. -/
def Obligations.NoStepIsRefused : Prop :=
  ∀ (s : State) (r : Refusal), step s ≠ .refused r

/-- 60_exceptions.md R153, R157: a stuck block performs no command and its step is the fault outcome (R153), and only a reset
leaves the faulted state (R157). THE MODEL'S CHOICE (log 8), on which the spec is silent: only a reset that comes next is taken,
and with a request in front of it the step is the fault outcome. -/
def Obligations.OnlyResetLeavesTheFaultedState : Prop :=
  ∀ (s : State) (r : Fault), s.fault = some r →
    (∀ i : Instr, exec i s = .fault r) ∧
    (∀ t : State, step s = .next t →
      t.fault = none ∧ ∃ rest w, s.inputs = .reset :: rest ∨ s.inputs = .resetDuring w :: rest) ∧
    (∀ rest w, s.inputs = .reset :: rest ∨ s.inputs = .resetDuring w :: rest →
      ∃ t, step s = .next t ∧ t.fault = none) ∧
    (∀ rest w, s.inputs = [] ∨ s.inputs = .request w :: rest → step s = .fault r)

/-- 60_exceptions.md R153, R156: raising the fault records the reason and saves nothing else; no response is delivered and
`lut_valid` stays as it is. What a step of the block then does is `OnlyResetLeavesTheFaultedState`. -/
def Obligations.RaisingTheFaultSavesOnlyTheReason : Prop :=
  ∀ (r : Fault) (s : State),
    (raiseFault r s).fault = some r ∧ (raiseFault r s).lutValid = s.lutValid ∧
      (raiseFault r s).lut = s.lut ∧ (raiseFault r s).responses = s.responses ∧
      (raiseFault r s).inputs = s.inputs ∧ (raiseFault r s).params = s.params ∧
      (raiseFault r s).resets = s.resets

/-- 10_state.md R42, the reset values the spec gives; the parameters that have a default have 00_scope.md R5's. -/
def Obligations.ResetStateHasTheSpecsValues : Prop :=
  State.reset.lutValid = false ∧ State.reset.fault = none ∧
    State.reset.params.packFormat = .binary32 ∧ State.reset.params.lutFormat = .binary32 ∧
    State.reset.params.satPolicy = .wrap16

/-- 70_reset_and_hazards.md R170, R179: a reset, between commands or cutting one, leaves the table invalid and no fault,
delivers no response, and leaves the instance's parameters (10_state.md R37). -/
def Obligations.ResetInvalidatesTheTableAndClearsTheFault : Prop :=
  ∀ (s : State) (rest : List HostEvent) (w : Request),
    s.inputs = .reset :: rest ∨ s.inputs = .resetDuring w :: rest →
    ∃ t, step s = .next t ∧ t.lutValid = false ∧ t.fault = none ∧ t.responses = s.responses ∧
      t.params = s.params

/-- THE MODEL'S CHOICE (logs 3, 4 and 6): a reset leaves no entry written, consumes the reset event and, with it, the command
that was cut, and counts as one more reset. -/
def Obligations.ResetForgetsTheTableAndCountsItself : Prop :=
  ∀ (s : State) (rest : List HostEvent) (w : Request),
    s.inputs = .reset :: rest ∨ s.inputs = .resetDuring w :: rest →
    ∃ t, step s = .next t ∧ (∀ i, t.lut.read i = none) ∧ t.inputs = rest ∧ t.resets = s.resets + 1

/-! ## Invariants -/

/-- The invariant holds right after reset, for every instance (10_state.md R40, R42). -/
def Obligations.ResetMeetsTheInvariant : Prop :=
  ∀ p : Params, Inv (resetWith p) ∧ Safe (resetWith p)

/-- 10_state.md R40 as an invariant: from every state that meets it, every step gives a state that meets it; the storage
stays canonical, a valid table stays BuildTable(), a faulted block has no valid table. -/
def Obligations.EveryStepKeepsTheInvariant : Prop :=
  ∀ s t : State, Inv s → step s = .next t → Inv t

/-- 60_exceptions.md R152: every entry BuildTable computes is finite and positive, and so no step from a state that meets
the invariant and records no fault stops or records one. -/
def Obligations.TheConstructionFaultIsNeverRaised : Prop :=
  (∀ (fmt : ArithFormat) (i : Nat), i < nLut → entryOk (tableEntry fmt i) = true) ∧
  (∀ s : State, Inv s → Safe s → ∃ t, step s = .next t ∧ Inv t ∧ Safe t)

/-- 10_state.md R32, R33, R37: without a reset event a valid table stays valid, a step never runs with a fault recorded, and
no step ever changes the parameters. -/
def Obligations.OnlyResetUndoesTheBuild : Prop :=
  ∀ s t : State, step s = .next t →
    t.params = s.params ∧
    ((∀ rest w, s.inputs ≠ .reset :: rest ∧ s.inputs ≠ .resetDuring w :: rest) →
      s.fault = none ∧ (s.lutValid = true → t.lutValid = true ∧ t.lut = s.lut))

/-- 00_scope.md R4(e), R5 and 20_memory.md R54: no rule reads P_CODE_BYTE_ORDER. An instance with another byte order takes the
same step in every state: to the same next state but for the parameter, or to the same fault. -/
def Obligations.NoStepReadsTheCodeByteOrder : Prop :=
  ∀ (s : State) (o : ByteOrder),
    (∀ t, step s = .next t → step (withCodeByteOrder o s) = .next (withCodeByteOrder o t)) ∧
    (∀ r, step s = .fault r → step (withCodeByteOrder o s) = .fault r)

/-! ## The table storage and the frame of every command -/

/-- 20_memory.md R53, R57 and the frame of all four commands. When a command gives a next state: the parameters, what is still
offered and the reset count are unchanged; it delivers exactly one response, or faults and delivers none; PACK, and every
command when the table is valid, leaves the table, its valid bit and the fault record alone; any other command leaves the table
alone or replaces it, and only an invalid one, by BuildTable(); nothing outside the 8192 entries changes. -/
def Obligations.FrameOfEveryCommand : Prop :=
  ∀ (i : Instr) (s t : State), exec i s = .next t →
    t.params = s.params ∧ t.inputs = s.inputs ∧ t.resets = s.resets ∧
    ((t.fault = none ∧ ∃ r, t.responses = s.responses ++ [r]) ∨
      (t.fault = some .lutEntryNotFinite ∧ t.lutValid = false ∧ t.responses = s.responses)) ∧
    ((∃ x y z, i = .pack x y z) ∨ s.lutValid = true →
      t.lut = s.lut ∧ t.lutValid = s.lutValid ∧ t.fault = s.fault) ∧
    (t.lut = s.lut ∨
      (s.lutValid = false ∧ ∀ k, k < nLut → t.lut.read k = some (tableEntry s.params.lutFormat k))) ∧
    (s.lut.wf = true → ∀ k, nLut ≤ k → t.lut.read k = s.lut.read k)

/-- 40_lut_builder.md R93, both formats: the range of n and of the coordinates, the only indices of its two ends, and the
range of the entries. -/
def Obligations.TableNormsAndEntriesAreInRange : Prop :=
  tableCoords 5418 = { xb := 42, yb := 42, zb := 42 } ∧ tableCoords 127 = { xb := 127, yb := 0, zb := -1 } ∧
  ∀ i : Nat, i < nLut →
    (5292 ≤ tableNorm2 i ∧ tableNorm2 i ≤ 16130 ∧ (tableNorm2 i = 5292 ↔ i = 5418) ∧
      (tableNorm2 i = 16130 ↔ i = 127)) ∧
    (0 ≤ (tableCoords i).xb ∧ 0 ≤ (tableCoords i).yb ∧ -1 ≤ (tableCoords i).zb ∧
      (tableCoords i).xb ≤ 127 ∧ (tableCoords i).yb ≤ 127 ∧ (tableCoords i).zb ≤ 126) ∧
    (∀ fmt, fpIsFinite (ofBits32 (tableEntry fmt i)) = true ∧
      0x3c0100fe ≤ (tableEntry fmt i).toNat ∧ (tableEntry fmt i).toNat ≤ 0x3c6138bb)

/-- 42_decoder.md R132 with 40_lut_builder.md R90: the decoder's coordinates of a code are the table's coordinates of its
magnitude index; and 42_decoder.md R133: zbits is -1 exactly for the boundary class, and within [0, 126] otherwise. -/
def Obligations.DecoderAndTableFoldAlike : Prop :=
  ∀ c : Code,
    unpackCoords c = tableCoords (mindex c).toNat ∧
    ((unpackCoords c).zb = -1 ↔ codeClass c = .boundary) ∧
    (codeClass c ≠ .boundary → 0 ≤ (unpackCoords c).zb ∧ (unpackCoords c).zb ≤ 126)

/-! ## BUILD_LUT and LUT_READ -/

/-- 40_lut_builder.md R96: BUILD_LUT completes with Done; it leaves a valid table, whose entry 0 in binary32 is 0x3c020821, and
writes nothing when the table was valid. -/
def Obligations.BuildLutAnswersDone : Prop :=
  ∀ s : State, Inv s → Safe s →
    exec .buildLut s = .next (afterTableCommand s .done) ∧
    TableBuilt (afterTableCommand s .done) ∧
    (s.lutValid = true → afterTableCommand s .done = { s with responses := s.responses ++ [.done] }) ∧
    (s.params.lutFormat = .binary32 → (afterTableCommand s .done).lut.read 0 = some 0x3c020821#32)

/-- 40_lut_builder.md R97: LUT_READ completes with the word TableEntry(in_code & 0x1fff), built first if need be; the word is
finite and positive. -/
def Obligations.LutReadAnswersTheTableEntry : Prop :=
  ∀ (c : Code) (s : State), Inv s → Safe s →
    exec (.lutRead c) s =
      .next (afterTableCommand s (.word (tableEntry s.params.lutFormat (c.toNat % 8192)))) ∧
    entryOk (tableEntry s.params.lutFormat (c.toNat % 8192)) = true

/-- 30_encoding.md R80: the index of LUT_READ is `in_code & 0x1fff`, and bits 15:13 of in_code are ignored. -/
def Obligations.LutReadIgnoresTheSignBits : Prop :=
  (∀ c : Code, (mindex c).toNat = (c &&& 0x1fff#16).toNat) ∧
  (∀ (c d : Code) (s : State), c &&& 0x1fff#16 = d &&& 0x1fff#16 → exec (.lutRead c) s = exec (.lutRead d) s)

/-! ## UNPACK -/

/-- 42_decoder.md R143: UNPACK completes, and its response depends only on the code and P_LUT_FORMAT: the decoder with
BuildTable(), whether or not the table was built before. -/
def Obligations.UnpackAnswersTheDecodedVector : Prop :=
  ∀ (c : Code) (s : State), Inv s → Safe s →
    exec (.unpack c) s =
      .next (afterTableCommand s (.vec (unpackWith (tableFn s.params.lutFormat) c)))

/-- 42_decoder.md R139 and 95_test_vectors.md S4: for every code and either table format the three components are finite and
within [-1, 1], and the Euclidean norm is within 1e-6 of 1 (exactly, on the values of the three patterns). -/
def Obligations.DecodedVectorsAreUnitVectors : Prop :=
  ∀ (fmt : ArithFormat) (c : Code),
    let v := unpackWith (tableFn fmt) c
    fpIsFinite (ofBits32 v.x) = true ∧ fpIsFinite (ofBits32 v.y) = true ∧ fpIsFinite (ofBits32 v.z) = true ∧
    |fpValue (ofBits32 v.x)| ≤ 1 ∧ |fpValue (ofBits32 v.y)| ≤ 1 ∧ |fpValue (ofBits32 v.z)| ≤ 1 ∧
    (1 - 1 / 1000000) ^ 2
        ≤ fpValue (ofBits32 v.x) ^ 2 + fpValue (ofBits32 v.y) ^ 2 + fpValue (ofBits32 v.z) ^ 2 ∧
    fpValue (ofBits32 v.x) ^ 2 + fpValue (ofBits32 v.y) ^ 2 + fpValue (ofBits32 v.z) ^ 2
        ≤ (1 + 1 / 1000000) ^ 2

/-- 42_decoder.md R141, with its +0.0 counterpart of R135: a component whose coordinate is 0 decodes to +0.0, or to -0.0 if its
sign flag is set; with the source's two examples. -/
def Obligations.ZeroCoordinatesDecodeToSignedZeros : Prop :=
  (∀ fmt, unpackWith (tableFn fmt) 0x8000#16 =
      { x := 0x80000000#32, y := 0x00000000#32, z := 0x3f800000#32 } ∧
    unpackWith (tableFn fmt) 0xe000#16 =
      { x := 0x80000000#32, y := 0x80000000#32, z := 0xbf800000#32 }) ∧
  ∀ (fmt : ArithFormat) (c : Code),
    ((unpackCoords c).xb = 0 →
      (unpackWith (tableFn fmt) c).x = if signX c then 0x80000000#32 else 0x00000000#32) ∧
    ((unpackCoords c).yb = 0 →
      (unpackWith (tableFn fmt) c).y = if signY c then 0x80000000#32 else 0x00000000#32) ∧
    ((unpackCoords c).zb = 0 →
      (unpackWith (tableFn fmt) c).z = if signZ c then 0x80000000#32 else 0x00000000#32)

/-- 42_decoder.md R142: for a boundary code the z component is the factor, negated unless sz is set. -/
def Obligations.BoundaryCodesDecodeWithOppositeZ : Prop :=
  ∀ (fmt : ArithFormat) (c : Code), codeClass c = .boundary →
    (unpackWith (tableFn fmt) c).z =
      if signZ c then tableFn fmt (mindex c) else fneg32 (tableFn fmt (mindex c))

/-- 42_decoder.md R136, R137, for any table: flipping a sign flag of the code flips the sign bit of its component and changes
nothing else. -/
def Obligations.SignFlagsFlipOnlySignBits : Prop :=
  ∀ (table : LutIndex → F32) (c : Code),
    unpackWith table (c ^^^ signMaskX) =
      { unpackWith table c with x := (unpackWith table c).x ^^^ 0x80000000#32 } ∧
    unpackWith table (c ^^^ signMaskY) =
      { unpackWith table c with y := (unpackWith table c).y ^^^ 0x80000000#32 } ∧
    unpackWith table (c ^^^ signMaskZ) =
      { unpackWith table c with z := (unpackWith table c).z ^^^ 0x80000000#32 }

/-! ## PACK -/

/-- 41_encoder.md R120, R121: PACK completes for every operand triple with a code that depends only on its operands,
P_PACK_FORMAT and P_PACK_SAT_POLICY, and changes nothing else. -/
def Obligations.PackAlwaysAnswersACode : Prop :=
  (∀ (x y z : F32) (s : State), Safe s →
    exec (.pack x y z) s =
      .next { s with responses := s.responses ++ [.code (packCode s.params x y z)] }) ∧
  (∀ (p q : Params) (x y z : F32), p.packFormat = q.packFormat → p.satPolicy = q.satPolicy →
    packCode p x y z = packCode q x y z)

/-- 41_encoder.md R111, by the bits of the operands: a component with its sign bit set that is neither a zero nor a NaN sets
its flag and loses its sign bit; every other component, -0.0 and NaN of either sign among them, leaves the flag clear and
passes unchanged; no component is negative afterwards. -/
def Obligations.PackSignsFollowTheBits : Prop :=
  ∀ x y z : F32,
    packSigns x y z =
      { signs := signsByBits x y z
        v := { x := if isNegativePattern x then x &&& 0x7fffffff#32 else x
               y := if isNegativePattern y then y &&& 0x7fffffff#32 else y
               z := if isNegativePattern z then z &&& 0x7fffffff#32 else z } } ∧
    isNegativePattern (packSigns x y z).v.x = false ∧ isNegativePattern (packSigns x y z).v.y = false ∧
    isNegativePattern (packSigns x y z).v.z = false

/-- 41_encoder.md R118: with a NaN component, with a sum that is infinite, or with every component zero, PACK answers the sign
bits alone, in the last case 0. -/
def Obligations.DegenerateInputsPackToTheirSigns : Prop :=
  ∀ (x y z : F32) (s : State), Safe s →
    (¬ NoNaN x y z ∨ (NoNaN x y z ∧ sumOf s.params.packFormat x y z = .inf false) →
      exec (.pack x y z) s = .next { s with responses := s.responses ++ [.code (signsByBits x y z)] }) ∧
    (isZeroPattern x = true → isZeroPattern y = true → isZeroPattern z = true →
      exec (.pack x y z) s = .next { s with responses := s.responses ++ [.code 0#16] })

/-- 41_encoder.md R118, its second row: a component that is an infinity, with no NaN among the three, makes the sum +inf. -/
def Obligations.AnInfiniteComponentMakesTheSumInfinite : Prop :=
  ∀ (fmt : ArithFormat) (x y z : F32), NoNaN x y z →
    isInfPattern x = true ∨ isInfPattern y = true ∨ isInfPattern z = true → sumOf fmt x y z = .inf false

/-- 41_encoder.md R119: -0.0 and +0.0 in the same place give the same code, and so do two NaNs of any sign and payload. -/
def Obligations.PackIgnoresZeroSignsAndNaNBits : Prop :=
  ∀ (x y z x' y' z' : F32) (s : State),
    (x = x' ∨ (isZeroPattern x = true ∧ isZeroPattern x' = true) ∨
      (isNaNPattern x = true ∧ isNaNPattern x' = true)) →
    (y = y' ∨ (isZeroPattern y = true ∧ isZeroPattern y' = true) ∨
      (isNaNPattern y = true ∧ isNaNPattern y' = true)) →
    (z = z' ∨ (isZeroPattern z = true ∧ isZeroPattern z' = true) ∨
      (isNaNPattern z = true ∧ isNaNPattern z' = true)) →
    exec (.pack x y z) s = exec (.pack x' y' z') s

/-- 41_encoder.md R117: S_MIN is the least binary32 sum whose weight is finite. -/
def Obligations.SMinIsTheLeastSumWithAFiniteWeight : Prop :=
  ∀ v : Fp, fpCanonical binary32 v = true → PositiveFinite v →
    (fpDiv binary32 (fpOfInt binary32 126) v = .inf false ↔ fpValue v < fpValue sMin)

/-- 41_encoder.md R117: the codes of the saturated path, under both policies. -/
def Obligations.SaturatedPathCodes : Prop :=
  ∀ (x y z : F32) (s : State), Safe s → SaturatedPath s.params.packFormat x y z →
    exec (.pack x y z) s = .next { s with
      responses := s.responses ++ [.code
        (match s.params.satPolicy, isZeroPattern x, isZeroPattern y with
         | .wrap16, false, false => signsByBits x y z ||| 0x4080#16
         | .wrap16, false, true => signsByBits x y z ||| 0x407f#16
         | .wrap16, true, false => 0xffff#16
         | .wrap16, true, true => signsByBits x y z
         | .mask, false, false => signsByBits x y z
         | .mask, false, true => signsByBits x y z ||| 0x007f#16
         | .mask, true, false => signsByBits x y z ||| 0x007f#16
         | .mask, true, true => signsByBits x y z)] }

/-- 41_encoder.md R122: in the ordinary case the weight is finite and positive, each product lies in [0, 127), the projections
and their sum are at most 126, and the code holds the sign flags and the folded or unfolded projections; it is never a boundary
code. -/
def Obligations.OrdinaryCodesHoldTheProjections : Prop :=
  ∀ (x y z : F32) (s : State), Safe s → OrdinaryCase s.params.packFormat x y z →
    let fmt := s.params.packFormat
    let v := (packSigns x y z).v
    let p := projectionsOf fmt x y z
    ∃ c : Code,
      exec (.pack x y z) s = .next { s with responses := s.responses ++ [.code c] } ∧
      PositiveFinite (packWeight fmt v) ∧
      (∀ a, a = v.x ∨ a = v.y →
        fpIsFinite (fpMul (formatOf fmt) (packOperand fmt a) (packWeight fmt v)) = true ∧
        0 ≤ fpValue (fpMul (formatOf fmt) (packOperand fmt a) (packWeight fmt v)) ∧
        fpValue (fpMul (formatOf fmt) (packOperand fmt a) (packWeight fmt v)) < 127) ∧
      p.xi.toNat + p.yi.toNat ≤ 126 ∧
      signBits (signX c) (signY c) (signZ c) = signsByBits x y z ∧
      (p.xi.toNat ≤ 63 → xfield c = p.xi.toNat ∧ yfield c = p.yi.toNat ∧ codeClass c = .unfolded) ∧
      (64 ≤ p.xi.toNat →
        xfield c = 127 - p.xi.toNat ∧ yfield c = 127 - p.yi.toNat ∧ codeClass c = .folded)

/-- 42_decoder.md R138: the decoder folds exactly when the encoder folded, and recovers the encoder's truncated projections.
-/
def Obligations.DecoderRecoversTheProjections : Prop :=
  ∀ (params : Params) (x y z : F32), OrdinaryCase params.packFormat x y z →
    let p := projectionsOf params.packFormat x y z
    let c := packCode params x y z
    (127 ≤ xfield c + yfield c ↔ 64 ≤ p.xi.toNat) ∧
      unpackCoords c =
        { xb := p.xi.toNat, yb := p.yi.toNat, zb := 126 - (p.xi.toNat : Int) - (p.yi.toNat : Int) }

/-- 41_encoder.md R116: outside the saturated path the two policies give the same code. -/
def Obligations.PoliciesAgreeOutsideTheSaturatedPath : Prop :=
  ∀ (params : Params) (x y z : F32), ¬ SaturatedPath params.packFormat x y z →
    packCode { params with satPolicy := .wrap16 } x y z = packCode { params with satPolicy := .mask } x y z

/-- 95_test_vectors.md section 0 (S1, S6, S7, S8, S9, S11), under every value of the parameters. -/
def Obligations.PackWorkedExamples : Prop :=
  ∀ params : Params,
    packCode params 0x3f800000#32 0#32 0#32 = 255#16 ∧ packCode params 0#32 0#32 0#32 = 0#16 ∧
    packCode params 0x7f800000#32 0#32 0#32 = 0#16 ∧ packCode params 0x7fc00000#32 0#32 0#32 = 0#16 ∧
    packCode params 0xff800000#32 0#32 0#32 = 32768#16 ∧
    packCode params 0xff800000#32 0xff800000#32 0xff800000#32 = 57344#16

/-! ## Whole runs -/

/-- 20_memory.md R57: issuing the same command twice gives the same response both times, and the second changes nothing
else. -/
def Obligations.SameCommandTwiceSameResponse : Prop :=
  ∀ (i : Instr) (s : State), Inv s → Safe s →
    ∃ t, exec i s = .next t ∧ t.responses = s.responses ++ [responseOf s.params i] ∧
      exec i t = .next { t with responses := t.responses ++ [responseOf s.params i] }

/-- 10_state.md R41, 20_memory.md R60, as a refinement: from every state that meets the invariant, the block performs any
sequence of requests offered to it, and its responses are those of a function that looks at one command at a time. -/
def Obligations.BlockRefinesAStatelessCodec : Prop :=
  ∀ (p : Program) (rest : List HostEvent) (s : State), Inv s → Safe s →
    s.inputs = p.map .request ++ rest →
    ∃ t, stepMany p.length s = .next t ∧
      t.responses = s.responses ++ p.map (fun w => responseOf s.params (decode w)) ∧
      t.inputs = rest ∧ Inv t ∧ Safe t

/-- 10_state.md R41: no response depends on whether `lut_valid` was 0 or 1. Two blocks that are offered the same inputs, resets
among them, answer alike at every step, whatever tables they hold. -/
def Obligations.TheTableIsUnobservable : Prop :=
  ∀ (n : Nat) (s s' : State), Inv s → Safe s → Inv s' → Safe s' →
    s.params = s'.params → s.inputs = s'.inputs → s.responses = s'.responses →
    ∃ t t', stepMany n s = .next t ∧ stepMany n s' = .next t' ∧ t.responses = t'.responses ∧ t.inputs = t'.inputs

/-- 70_reset_and_hazards.md R178, R179: whatever programs come before and after it, a reset that cuts a command leaves that
run without an observation, and the run after it is observed with all its responses; a reset between commands (log 20: it
begins another run) leaves both runs observed. -/
def Obligations.ARunCutByResetHasNotEnded : Prop :=
  ∀ (params : Params) (p q : Program) (w : Request),
    (∃ final, observeRuns params (p.map .request ++ .resetDuring w :: q.map .request) =
      [none, some { responses := q.map (fun v => responseOf params (decode v)), final := final }]) ∧
    (∃ final final', observeRuns params (p.map .request ++ .reset :: q.map .request) =
      [some { responses := p.map (fun v => responseOf params (decode v)), final := final },
       some { responses := q.map (fun v => responseOf params (decode v)), final := final' }])

/-! ## The numeric primitives -/

/-- 00_scope.md R9, R10: addition is correctly rounded, in both formats. -/
def Obligations.AdditionIsCorrectlyRounded : Prop :=
  ∀ (fmt : ArithFormat) (a b : Fp),
    fpCanonical (formatOf fmt) a = true → fpCanonical (formatOf fmt) b = true →
    fpIsFinite a = true → fpIsFinite b = true →
    RoundsTo (formatOf fmt) (fpValue a + fpValue b) (fpAdd (formatOf fmt) a b)

/-- 00_scope.md R9, R10: multiplication is correctly rounded, in both formats. -/
def Obligations.MultiplicationIsCorrectlyRounded : Prop :=
  ∀ (fmt : ArithFormat) (a b : Fp),
    fpCanonical (formatOf fmt) a = true → fpCanonical (formatOf fmt) b = true →
    fpIsFinite a = true → fpIsFinite b = true →
    RoundsTo (formatOf fmt) (fpValue a * fpValue b) (fpMul (formatOf fmt) a b)

/-- 00_scope.md R9, R10: division by a value that is not zero is correctly rounded, in both formats. -/
def Obligations.DivisionIsCorrectlyRounded : Prop :=
  ∀ (fmt : ArithFormat) (a b : Fp),
    fpCanonical (formatOf fmt) a = true → fpCanonical (formatOf fmt) b = true →
    fpIsFinite a = true → fpIsFinite b = true → fpValue b ≠ 0 →
    RoundsTo (formatOf fmt) (fpValue a / fpValue b) (fpDiv (formatOf fmt) a b)

/-- 00_scope.md R9, R10: the square root of a positive finite value is correctly rounded, in both formats. -/
def Obligations.SquareRootIsCorrectlyRounded : Prop :=
  ∀ (fmt : ArithFormat) (a : Fp), fpCanonical (formatOf fmt) a = true → PositiveFinite a →
    SqrtRoundsTo (formatOf fmt) (fpValue a) (fpSqrt (formatOf fmt) a)

/-- 00_scope.md R10: narrowing is correctly rounded and widening is exact. -/
def Obligations.ConversionsRoundOrAreExact : Prop :=
  (∀ a : Fp, fpCanonical binary64 a = true → fpIsFinite a = true →
    RoundsTo binary32 (fpValue a) (fpConvert binary32 a)) ∧
  (∀ a : Fp, fpCanonical binary32 a = true → fpIsFinite a = true →
    fpIsFinite (fpConvert binary64 a) = true ∧ fpValue (fpConvert binary64 a) = fpValue a)

/-- 00_scope.md R14: an integer of magnitude at most 2^24 becomes a binary32 value exactly. -/
def Obligations.SmallIntegersConvertExactly : Prop :=
  ∀ n : Int, |n| ≤ 2 ^ 24 →
    fpIsFinite (ofBits32 (i2f32 n)) = true ∧ fpValue (ofBits32 (i2f32 n)) = (n : ℚ)

/-- 00_scope.md R13: `sat_u16` on every value. -/
def Obligations.SatU16TruncatesAndSaturates : Prop :=
  satU16 .nan = 0#16 ∧ satU16 (.inf false) = 65535#16 ∧ satU16 (.inf true) = 0#16 ∧
  ∀ v : Fp, fpIsFinite v = true → (satU16 v).toNat = min 65535 ⌊fpValue v⌋.toNat

/-- 00_scope.md R7: patterns and canonical values stand for each other; whatever bits are drawn for it, a NaN's pattern is a
NaN. -/
def Obligations.PatternsAndValuesCorrespond : Prop :=
  (∀ (d b : F32), isNaNPattern b = false → toBits32 d (ofBits32 b) = b) ∧
  (∀ (d : F32) (v : Fp), fpCanonical binary32 v = true → ofBits32 (toBits32 d v) = v) ∧
  (∀ b : F32, ofBits32 b = .nan ↔ isNaNPattern b = true)

/-- 00_scope.md R12: the ordered less-than is that of the numbers, with the infinities at the ends; it is false if an operand
is a NaN; and "strictly negative" is what the bits of a pattern say. -/
def Obligations.LessThanComparesValues : Prop :=
  (∀ a b : Fp, fpIsFinite a = true → fpIsFinite b = true → (fpLt a b = true ↔ fpValue a < fpValue b)) ∧
  (∀ a : Fp, fpLt .nan a = false ∧ fpLt a .nan = false) ∧
  (∀ a : Fp, fpIsFinite a = true →
    fpLt a (.inf false) = true ∧ fpLt (.inf true) a = true ∧ fpLt (.inf false) a = false ∧
      fpLt a (.inf true) = false) ∧
  (fpLt (.inf true) (.inf false) = true ∧ fpLt (.inf false) (.inf true) = false ∧
    ∀ n, fpLt (.inf n) (.inf n) = false) ∧
  (∀ v : F32, strictlyNegative v = isNegativePattern v)

/-- 00_scope.md R9, the special cases it lists. -/
def Obligations.SpecialOperandsOfTheRules : Prop :=
  (∀ n m : Bool, fpMul binary32 (.fin n 0 (fpQmin binary32)) (.inf m) = .nan) ∧
  fpDiv binary32 (fpOfInt binary32 126) (.fin false 0 (fpQmin binary32)) = .inf false ∧
  fpDiv binary32 (fpOfInt binary32 126) (.fin true 0 (fpQmin binary32)) = .inf true ∧
  fpDiv binary32 (fpOfInt binary32 126) (.inf false) = .fin false 0 (fpQmin binary32) ∧
  (∀ v : Fp, v ≠ .nan → v ≠ .inf true → fpAdd binary32 (.inf false) v = .inf false) ∧
  (∀ v : Fp, fpMul binary32 .nan v = .nan ∧ fpMul binary32 v .nan = .nan ∧ fpAdd binary32 .nan v = .nan ∧
    fpAdd binary32 v .nan = .nan ∧ fpDiv binary32 .nan v = .nan ∧ fpDiv binary32 v .nan = .nan ∧
    fpSqrt binary32 .nan = .nan)
end

