-- ==== Sys2Proof/Laws/Decode.lean ====
section
/-! SUPPORT. The fields of a request word that is put together from its fields. -/

namespace Sys2Proof

theorem getLsbD_requestWord (op : BitVec 2) (x y z : F32) (code : Code) (i : Nat) :
    (requestWord op x y z code).getLsbD i =
      if i < 16 then code.getLsbD i
      else if i < 48 then z.getLsbD (i - 16)
      else if i < 80 then y.getLsbD (i - 48)
      else if i < 112 then x.getLsbD (i - 80)
      else op.getLsbD (i - 112) := by
  simp only [requestWord, BitVec.getLsbD_append, Nat.sub_sub]
  split_ifs <;> first | rfl | omega

@[simp] theorem fieldCode_requestWord (op : BitVec 2) (x y z : F32) (code : Code) :
    fieldCode (requestWord op x y z code) = code := by
  apply BitVec.eq_of_getLsbD_eq
  intro i hi
  simp [fieldCode, getLsbD_requestWord, hi]

@[simp] theorem fieldZ_requestWord (op : BitVec 2) (x y z : F32) (code : Code) :
    fieldZ (requestWord op x y z code) = z := by
  apply BitVec.eq_of_getLsbD_eq
  intro i hi
  simp [fieldZ, getLsbD_requestWord, hi, show 16 + i < 48 by omega]

@[simp] theorem fieldY_requestWord (op : BitVec 2) (x y z : F32) (code : Code) :
    fieldY (requestWord op x y z code) = y := by
  apply BitVec.eq_of_getLsbD_eq
  intro i hi
  simp [fieldY, getLsbD_requestWord, hi, show 48 + i < 80 by omega, show ¬ 48 + i < 16 by omega]

@[simp] theorem fieldX_requestWord (op : BitVec 2) (x y z : F32) (code : Code) :
    fieldX (requestWord op x y z code) = x := by
  apply BitVec.eq_of_getLsbD_eq
  intro i hi
  simp [fieldX, getLsbD_requestWord, hi, show 80 + i < 112 by omega, show ¬ 80 + i < 16 by omega,
    show ¬ 80 + i < 48 by omega]

end Sys2Proof
end

