-- ==== Sys2Proof/Laws/Float.lean ====
section
/-! SUPPORT. The parts of the floating-point operations: digit counts, the integer square root, and that rounding gives
canonical values. -/

namespace Sys2Proof.Machine

@[simp] theorem bitLen_zero : bitLen 0 = 0 := rfl

/-- A number is below two to its digit count. -/
theorem lt_two_pow_bitLen (n : Nat) : n < 2 ^ bitLen n := by
  by_cases h : n = 0
  · subst h; decide
  · rw [bitLen, if_neg h]; exact Nat.lt_log2_self

/-- A positive number reaches the place of its first digit. -/
theorem two_pow_bitLen_le {n : Nat} (h : n ≠ 0) : 2 ^ (bitLen n - 1) ≤ n := by
  rw [bitLen, if_neg h, Nat.add_sub_cancel]; exact Nat.log2_self_le h

/-- A positive number has a digit. -/
theorem bitLen_pos {n : Nat} (h : n ≠ 0) : 0 < bitLen n := by
  rw [bitLen, if_neg h]; omega

/-- Newton's iteration from a guess that is not below the root ends at the root rounded down. -/
theorem isqrtFrom_spec (n : Nat) (fuel x : Nat) (hx : n < (x + 1) * (x + 1)) (hf : x ≤ fuel) :
    isqrtFrom n fuel x * isqrtFrom n fuel x ≤ n ∧ n < (isqrtFrom n fuel x + 1) * (isqrtFrom n fuel x + 1) := by
  induction fuel generalizing x with
  | zero =>
    have h0 : x = 0 := by omega
    subst h0
    simp only [isqrtFrom]
    omega
  | succ fuel ih =>
    simp only [isqrtFrom]
    split
    · next hle =>
      refine ⟨?_, hx⟩
      by_cases h0 : x = 0
      · subst h0; omega
      · have h2 : x ≤ n / x := by omega
        calc x * x ≤ x * (n / x) := Nat.mul_le_mul_left x h2
          _ ≤ n := Nat.mul_div_le n x
    · next hlt =>
      have hk := Nat.zero_le (n / x)
      have hpos : 0 < x := by omega
      refine ih _ ?_ (by omega)
      have hy : x + (n / x + 1) ≤ 2 * ((x + n / x) / 2 + 1) := by omega
      have hn : n < x * (n / x + 1) := by
        have := Nat.lt_mul_div_succ n hpos
        simpa [Nat.succ_eq_add_one] using this
      generalize (x + n / x) / 2 + 1 = z at hy
      generalize n / x + 1 = k at hy hn
      have hsq : (x + k) * (x + k) ≤ 2 * z * (2 * z) := Nat.mul_le_mul hy hy
      have hamgm : 4 * (x * k) ≤ (x + k) * (x + k) := by
        zify; nlinarith [sq_nonneg ((x : ℤ) - k)]
      nlinarith

/-- The integer square root, rounded down. -/
theorem isqrt_spec (n : Nat) : isqrt n * isqrt n ≤ n ∧ n < (isqrt n + 1) * (isqrt n + 1) := by
  refine isqrtFrom_spec n _ _ ?_ le_rfl
  have h1 : n < 2 ^ (n.log2 + 1) := Nat.lt_log2_self
  have h2 : 2 ^ (n.log2 + 1) ≤ 2 ^ (n.log2 / 2 + 1) * 2 ^ (n.log2 / 2 + 1) := by
    rw [← pow_add]; exact Nat.pow_le_pow_right (by omega) (by omega)
  exact lt_of_lt_of_le (lt_of_lt_of_le h1 h2) (Nat.mul_le_mul (Nat.le_succ _) (Nat.le_succ _))

/-- The exponents of a format are in order. -/
theorem fpQmin_le_fpQmax (F : FpFormat) : fpQmin F ≤ fpQmax F := by
  unfold fpQmin fpQmax; omega

/-- Finishing a rounded significand that fits gives a canonical value. -/
theorem fpFinish_canonical (F : FpFormat) (neg : Bool) (m : Nat) (q : Int) (hm : m ≤ 2 ^ fpPrec F)
    (hq : fpQmin F ≤ q) (hn : 2 ^ (fpPrec F - 1) ≤ m ∨ q = fpQmin F) :
    fpCanonical F (fpFinish F neg m q) = true := by
  have hp : 2 ^ (fpPrec F - 1) < 2 ^ fpPrec F :=
    Nat.pow_lt_pow_right (by omega) (by unfold fpPrec; omega)
  unfold fpFinish
  split
  · split
    · rfl
    · simp only [fpCanonical, decide_eq_true_eq]
      exact ⟨hp, by omega, by omega, .inl le_rfl⟩
  · split
    · rfl
    · simp only [fpCanonical, decide_eq_true_eq]
      exact ⟨by omega, hq, by omega, hn⟩

/-- Rounding gives a value the format represents, in canonical form. -/
theorem fpRound_canonical (F : FpFormat) (neg : Bool) (m : Nat) (e : Int) :
    fpCanonical F (fpRound F neg m e) = true := by
  unfold fpRound
  split
  · simp only [fpCanonical, decide_eq_true_eq]
    exact ⟨Nat.two_pow_pos _, le_rfl, fpQmin_le_fpQmax F, .inr trivial⟩
  · next h0 =>
    have hlt := lt_two_pow_bitLen m
    have hge := two_pow_bitLen_le h0
    have hL := bitLen_pos h0
    have hprec : 0 < fpPrec F := Nat.succ_pos _
    have hq1 : fpQmin F ≤ fpLastPlace F m e := le_max_left _ _
    have hq2 : e + bitLen m - fpPrec F ≤ fpLastPlace F m e := le_max_right _ _
    have hq3 : fpLastPlace F m e = fpQmin F ∨ fpLastPlace F m e = e + bitLen m - fpPrec F := by
      unfold fpLastPlace; omega
    generalize fpLastPlace F m e = q at hq1 hq2 hq3
    dsimp only
    split
    · next hqe =>
      refine fpFinish_canonical F neg _ q ?_ hq1 ?_
      · calc m * 2 ^ (e - q).toNat ≤ 2 ^ bitLen m * 2 ^ (e - q).toNat := Nat.mul_le_mul_right _ hlt.le
          _ = 2 ^ (bitLen m + (e - q).toNat) := (pow_add _ _ _).symm
          _ ≤ 2 ^ fpPrec F := Nat.pow_le_pow_right (by omega) (by omega)
      · rcases hq3 with hq | hq
        · exact .inr hq
        · refine .inl ?_
          calc 2 ^ (fpPrec F - 1) ≤ 2 ^ (bitLen m - 1 + (e - q).toNat) :=
                Nat.pow_le_pow_right (by omega) (by omega)
            _ = 2 ^ (bitLen m - 1) * 2 ^ (e - q).toNat := pow_add _ _ _
            _ ≤ m * 2 ^ (e - q).toNat := Nat.mul_le_mul_right _ hge
    · next hqe =>
      have ht : m / 2 ^ (q - e).toNat < 2 ^ fpPrec F := by
        refine Nat.div_lt_of_lt_mul (lt_of_lt_of_le hlt ?_)
        rw [← pow_add]
        exact Nat.pow_le_pow_right (by omega) (by omega)
      have hn : 2 ^ (fpPrec F - 1) ≤ m / 2 ^ (q - e).toNat ∨ q = fpQmin F := by
        rcases hq3 with hq | hq
        · exact .inr hq
        · refine .inl ((Nat.le_div_iff_mul_le (Nat.two_pow_pos _)).2 (le_trans ?_ hge))
          rw [← pow_add]
          exact Nat.pow_le_pow_right (by omega) (by omega)
      split
      · refine fpFinish_canonical F neg _ q (by omega) hq1 ?_
        rcases hn with hn | hn
        · exact .inl (by omega)
        · exact .inr hn
      · exact fpFinish_canonical F neg _ q ht.le hq1 hn

/-- The value of a binary32 pattern is canonical. -/
theorem ofBits32_canonical (b : F32) : fpCanonical binary32 (ofBits32 b) = true := by
  have hq : fpQmin binary32 = -149 := by decide
  have hQ : fpQmax binary32 = 104 := by decide
  have hp : fpPrec binary32 = 24 := by decide
  have key : ∀ (neg : Bool) (frac ex : Nat), frac < 2 ^ 23 → ex < 2 ^ 8 →
      fpCanonical binary32
        (if ex = 2 ^ 8 - 1 then (if frac = 0 then .inf neg else .nan)
         else if ex = 0 then .fin neg frac (fpQmin binary32)
         else .fin neg (2 ^ 23 + frac) (fpQmin binary32 + (ex - 1 : Nat))) = true := by
    intro neg frac ex hfrac hex
    split
    · split <;> rfl
    · split
      · simp only [fpCanonical, decide_eq_true_eq, hq, hQ, hp]
        exact ⟨by omega, by omega, by omega, .inr trivial⟩
      · simp only [fpCanonical, decide_eq_true_eq, hq, hQ, hp]; omega
  exact key _ _ _ (Nat.mod_lt _ (by norm_num)) (Nat.mod_lt _ (by norm_num))

end Sys2Proof.Machine
end

