-- ==== Sys2Proof/Laws/Memory.lean ====
section
/-! SUPPORT. The table storage: every operation keeps the canonical form; what a read gives after a write; what the build
leaves. -/

namespace Sys2Proof.Machine

/-- A list that may begin at `lo` may begin at any lower index. -/
theorem Memory.wfFrom_mono {lo hi : Nat} {m : Memory} (hle : lo ≤ hi) (h : Memory.wfFrom hi m = true) :
    Memory.wfFrom lo m = true := by
  cases m with
  | nil => rfl
  | cons c m =>
    obtain ⟨i, v⟩ := c
    simp only [Memory.wfFrom, Bool.and_eq_true, decide_eq_true_eq] at h ⊢
    exact ⟨⟨by omega, h.1.2⟩, h.2⟩

/-- The storage with nothing written is canonical. -/
theorem Memory.wf_nil : Memory.wf [] = true := rfl

/-- An entry below the first index of a canonical list is unwritten. -/
theorem Memory.read_below {lo i : Nat} {m : Memory} (h : Memory.wfFrom lo m = true) (hi : i < lo) :
    m.read i = none := by
  induction m generalizing lo with
  | nil => rfl
  | cons c m ih =>
    obtain ⟨j, v⟩ := c
    simp only [Memory.wfFrom, Bool.and_eq_true, decide_eq_true_eq] at h
    have hne : i ≠ j := by omega
    simpa [Memory.read, hne] using ih h.2 (by omega)

/-- An entry outside the index space is unwritten in a canonical list. -/
theorem Memory.read_above {lo i : Nat} {m : Memory} (h : Memory.wfFrom lo m = true) (hi : nLut ≤ i) :
    m.read i = none := by
  induction m generalizing lo with
  | nil => rfl
  | cons c m ih =>
    obtain ⟨j, v⟩ := c
    simp only [Memory.wfFrom, Bool.and_eq_true, decide_eq_true_eq] at h
    have hne : i ≠ j := by omega
    simpa [Memory.read, hne] using ih h.2

/-- Reading the entry just written gives the word written. -/
theorem Memory.read_write_same (m : Memory) (i : Nat) (v : F32) : (m.write i v).read i = some v := by
  induction m with
  | nil => simp [Memory.write, Memory.read]
  | cons c m ih =>
    obtain ⟨j, w⟩ := c
    simp only [Memory.write]
    split
    · simp [Memory.read]
    · split
      · simp [Memory.read]
      · next h => simpa [Memory.read, h] using ih

/-- A write leaves every other entry of a canonical list alone. -/
theorem Memory.read_write_other {lo i k : Nat} {m : Memory} (v : F32) (h : Memory.wfFrom lo m = true) (hk : k ≠ i) :
    (m.write i v).read k = m.read k := by
  induction m generalizing lo with
  | nil => simp [Memory.write, Memory.read, hk]
  | cons c m ih =>
    obtain ⟨j, w⟩ := c
    simp only [Memory.wfFrom, Bool.and_eq_true] at h
    simp only [Memory.write]
    split
    · simp [Memory.read, hk]
    · split
      · next hij => subst hij; simp [Memory.read, hk]
      · simp only [Memory.read, ih h.2]

/-- A write keeps the canonical form. -/
theorem Memory.wfFrom_write {lo i : Nat} {m : Memory} (v : F32) (h : Memory.wfFrom lo m = true) (hlo : lo ≤ i)
    (hi : i < nLut) : Memory.wfFrom lo (m.write i v) = true := by
  induction m generalizing lo with
  | nil => simp [Memory.write, Memory.wfFrom, hlo, hi]
  | cons c m ih =>
    obtain ⟨j, w⟩ := c
    simp only [Memory.wfFrom, Bool.and_eq_true, decide_eq_true_eq] at h
    simp only [Memory.write]
    split
    · next hij =>
      simp only [Memory.wfFrom, Bool.and_eq_true, decide_eq_true_eq]
      exact ⟨⟨hlo, hi⟩, ⟨by omega, h.1.2⟩, h.2⟩
    · split
      · next hij =>
        subst hij
        simp only [Memory.wfFrom, Bool.and_eq_true, decide_eq_true_eq]
        exact ⟨⟨hlo, hi⟩, h.2⟩
      · simp only [Memory.wfFrom, Bool.and_eq_true, decide_eq_true_eq]
        exact ⟨h.1, ih h.2 (by omega)⟩

/-- A write inside the index space keeps the canonical form. -/
theorem Memory.wf_write {m : Memory} {i : Nat} (v : F32) (h : m.wf = true) (hi : i < nLut) :
    (m.write i v).wf = true :=
  Memory.wfFrom_write v h (Nat.zero_le i) hi

/-- Canonical lists with the same reads are the same list. -/
theorem Memory.ext_of_read {lo : Nat} {m n : Memory} (hm : Memory.wfFrom lo m = true) (hn : Memory.wfFrom lo n = true)
    (h : ∀ i, m.read i = n.read i) : m = n := by
  induction m generalizing lo n with
  | nil =>
    cases n with
    | nil => rfl
    | cons c n =>
      obtain ⟨j, w⟩ := c
      have := h j
      simp [Memory.read] at this
  | cons c m ih =>
    obtain ⟨i, v⟩ := c
    simp only [Memory.wfFrom, Bool.and_eq_true, decide_eq_true_eq] at hm
    cases n with
    | nil =>
      have := h i
      simp [Memory.read] at this
    | cons d n =>
      obtain ⟨j, w⟩ := d
      simp only [Memory.wfFrom, Bool.and_eq_true, decide_eq_true_eq] at hn
      have hij : i = j := by
        rcases Nat.lt_trichotomy i j with hlt | heq | hgt
        · have := h i
          rw [show Memory.read ((j, w) :: n) i = none by
            simp only [Memory.read, Nat.ne_of_lt hlt, if_false]
            exact Memory.read_below hn.2 (by omega)] at this
          simp [Memory.read] at this
        · exact heq
        · have := h j
          rw [show Memory.read ((i, v) :: m) j = none by
            simp only [Memory.read, Nat.ne_of_lt hgt, if_false]
            exact Memory.read_below hm.2 (by omega)] at this
          simp [Memory.read] at this
      subst hij
      have hvw : v = w := by simpa [Memory.read] using h i
      subst hvw
      congr 1
      refine ih hm.2 hn.2 fun k => ?_
      by_cases hk : k = i
      · subst hk
        rw [Memory.read_below hm.2 (by omega), Memory.read_below hn.2 (by omega)]
      · simpa [Memory.read, hk] using h k

/-! ## The build -/

/-- The cells of consecutive entries are canonical. -/
theorem tableCells_wfFrom (fmt : ArithFormat) (count i : Nat) (h : i + count ≤ nLut) :
    Memory.wfFrom i (tableCells fmt count i) = true := by
  induction count generalizing i with
  | zero => rfl
  | succ count ih =>
    simp only [tableCells, Memory.wfFrom, Bool.and_eq_true, decide_eq_true_eq]
    exact ⟨by omega, ih (i + 1) (by omega)⟩

/-- What the cells of consecutive entries read as. -/
theorem tableCells_read (fmt : ArithFormat) (count i k : Nat) :
    (tableCells fmt count i).read k = if i ≤ k ∧ k < i + count then some (tableEntry fmt k) else none := by
  induction count generalizing i with
  | zero => simp only [tableCells, Memory.read]; rw [if_neg (by omega)]
  | succ count ih =>
    simp only [tableCells, Memory.read, ih]
    by_cases hk : k = i
    · subst hk; rw [if_pos rfl, if_pos (by omega)]
    · rw [if_neg hk]
      by_cases hin : i + 1 ≤ k ∧ k < i + 1 + count
      · rw [if_pos hin, if_pos (by omega)]
      · rw [if_neg hin, if_neg (by omega)]

/-- BuildTable() is canonical. -/
theorem buildTable_wf (fmt : ArithFormat) : (buildTable fmt).wf = true :=
  tableCells_wfFrom fmt nLut 0 (by omega)

/-- Entry `i` of BuildTable() is TableEntry(i). -/
theorem buildTable_read (fmt : ArithFormat) {i : Nat} (h : i < nLut) :
    (buildTable fmt).read i = some (tableEntry fmt i) := by
  rw [buildTable, tableCells_read, if_pos (by omega)]

/-- The writes of the loop of 40_lut_builder.md R95, entry after entry: `count` of them from index `i` on. -/
def writeEntries (fmt : ArithFormat) : Nat → Nat → Memory → Memory
  | 0, _, m => m
  | count + 1, i, m => writeEntries fmt count (i + 1) (m.write i (tableEntry fmt i))

/-- The loop keeps the canonical form. -/
theorem writeEntries_wf (fmt : ArithFormat) (count i : Nat) (m : Memory) (h : m.wf = true) (hi : i + count ≤ nLut) :
    (writeEntries fmt count i m).wf = true := by
  induction count generalizing i m with
  | zero => exact h
  | succ count ih => exact ih (i + 1) _ (Memory.wf_write _ h (by omega)) (by omega)

/-- What the loop leaves in each entry. -/
theorem writeEntries_read (fmt : ArithFormat) (count i k : Nat) (m : Memory) (h : m.wf = true)
    (hi : i + count ≤ nLut) :
    (writeEntries fmt count i m).read k =
      if i ≤ k ∧ k < i + count then some (tableEntry fmt k) else m.read k := by
  induction count generalizing i m with
  | zero => simp only [writeEntries]; rw [if_neg (by omega)]
  | succ count ih =>
    simp only [writeEntries]
    rw [ih (i + 1) _ (Memory.wf_write _ h (by omega)) (by omega)]
    by_cases hk : k = i
    · subst hk; rw [if_neg (by omega), if_pos (by omega), Memory.read_write_same]
    · by_cases hin : i + 1 ≤ k ∧ k < i + 1 + count
      · rw [if_pos hin, if_pos (by omega)]
      · rw [if_neg hin, if_neg (by omega), Memory.read_write_other _ h hk]

/-- The loop over the whole index space leaves BuildTable() in the storage, whatever stood there (log 14). -/
theorem writeEntries_eq_buildTable (fmt : ArithFormat) (m : Memory) (h : m.wf = true) :
    writeEntries fmt nLut 0 m = buildTable fmt := by
  refine Memory.ext_of_read (lo := 0) (writeEntries_wf fmt nLut 0 m h (by omega)) (buildTable_wf fmt) fun k => ?_
  rw [writeEntries_read fmt nLut 0 k m h (by omega)]
  by_cases hk : k < nLut
  · rw [if_pos (by omega), buildTable_read fmt hk]
  · rw [if_neg (by omega), Memory.read_above h (by omega), Memory.read_above (buildTable_wf fmt) (by omega)]

/-- The check passes exactly if every entry of the storage does. -/
theorem checkLut_iff {lo : Nat} {m : Memory} (h : Memory.wfFrom lo m = true) :
    checkLut m = true ↔ ∀ i v, m.read i = some v → entryOk v = true := by
  induction m generalizing lo with
  | nil => simp [checkLut, Memory.read]
  | cons c m ih =>
    obtain ⟨j, w⟩ := c
    simp only [Memory.wfFrom, Bool.and_eq_true] at h
    simp only [checkLut, Bool.and_eq_true, ih h.2, Memory.read]
    constructor
    · rintro ⟨hw, hm⟩ i v hv
      split at hv
      · cases hv; exact hw
      · exact hm i v hv
    · intro hall
      refine ⟨hall j w (by simp), fun i v hv => hall i v ?_⟩
      by_cases hij : i = j
      · subst hij
        rw [Memory.read_below h.2 (by omega)] at hv
        cases hv
      · simpa [hij] using hv

end Sys2Proof.Machine
end

