-- ==== Sys2Proof/Laws/State.lean ====
section
/-! SUPPORT. One lemma per field per update of the state. -/

namespace Sys2Proof.Machine

@[simp] theorem respond_params (r : Response) (s : State) : (respond r s).params = s.params := rfl
@[simp] theorem respond_lut (r : Response) (s : State) : (respond r s).lut = s.lut := rfl
@[simp] theorem respond_lutValid (r : Response) (s : State) : (respond r s).lutValid = s.lutValid := rfl
@[simp] theorem respond_fault (r : Response) (s : State) : (respond r s).fault = s.fault := rfl
@[simp] theorem respond_inputs (r : Response) (s : State) : (respond r s).inputs = s.inputs := rfl
@[simp] theorem respond_responses (r : Response) (s : State) : (respond r s).responses = s.responses ++ [r] := rfl
@[simp] theorem respond_resets (r : Response) (s : State) : (respond r s).resets = s.resets := rfl

@[simp] theorem raiseFault_params (r : Fault) (s : State) : (raiseFault r s).params = s.params := rfl
@[simp] theorem raiseFault_lut (r : Fault) (s : State) : (raiseFault r s).lut = s.lut := rfl
@[simp] theorem raiseFault_lutValid (r : Fault) (s : State) : (raiseFault r s).lutValid = s.lutValid := rfl
@[simp] theorem raiseFault_fault (r : Fault) (s : State) : (raiseFault r s).fault = some r := rfl
@[simp] theorem raiseFault_inputs (r : Fault) (s : State) : (raiseFault r s).inputs = s.inputs := rfl
@[simp] theorem raiseFault_responses (r : Fault) (s : State) : (raiseFault r s).responses = s.responses := rfl
@[simp] theorem raiseFault_resets (r : Fault) (s : State) : (raiseFault r s).resets = s.resets := rfl

@[simp] theorem resetBlock_params (s : State) : (resetBlock s).params = s.params := rfl
@[simp] theorem resetBlock_lut (s : State) : (resetBlock s).lut = [] := rfl
@[simp] theorem resetBlock_lutValid (s : State) : (resetBlock s).lutValid = false := rfl
@[simp] theorem resetBlock_fault (s : State) : (resetBlock s).fault = none := rfl
@[simp] theorem resetBlock_inputs (s : State) : (resetBlock s).inputs = s.inputs := rfl
@[simp] theorem resetBlock_responses (s : State) : (resetBlock s).responses = s.responses := rfl
@[simp] theorem resetBlock_resets (s : State) : (resetBlock s).resets = s.resets + 1 := rfl

@[simp] theorem setInputs_params (l : List HostEvent) (s : State) : (setInputs l s).params = s.params := rfl
@[simp] theorem setInputs_lut (l : List HostEvent) (s : State) : (setInputs l s).lut = s.lut := rfl
@[simp] theorem setInputs_lutValid (l : List HostEvent) (s : State) : (setInputs l s).lutValid = s.lutValid := rfl
@[simp] theorem setInputs_fault (l : List HostEvent) (s : State) : (setInputs l s).fault = s.fault := rfl
@[simp] theorem setInputs_inputs (l : List HostEvent) (s : State) : (setInputs l s).inputs = l := rfl
@[simp] theorem setInputs_responses (l : List HostEvent) (s : State) : (setInputs l s).responses = s.responses := rfl
@[simp] theorem setInputs_resets (l : List HostEvent) (s : State) : (setInputs l s).resets = s.resets := rfl

@[simp] theorem offer_params (p : Program) (s : State) : (offer p s).params = s.params := rfl
@[simp] theorem offer_lut (p : Program) (s : State) : (offer p s).lut = s.lut := rfl
@[simp] theorem offer_lutValid (p : Program) (s : State) : (offer p s).lutValid = s.lutValid := rfl
@[simp] theorem offer_fault (p : Program) (s : State) : (offer p s).fault = s.fault := rfl
@[simp] theorem offer_inputs (p : Program) (s : State) : (offer p s).inputs = s.inputs ++ p.map .request := rfl
@[simp] theorem offer_responses (p : Program) (s : State) : (offer p s).responses = s.responses := rfl
@[simp] theorem offer_resets (p : Program) (s : State) : (offer p s).resets = s.resets := rfl

@[simp] theorem withCodeByteOrder_lut (o : ByteOrder) (s : State) : (withCodeByteOrder o s).lut = s.lut := rfl
@[simp] theorem withCodeByteOrder_lutValid (o : ByteOrder) (s : State) : (withCodeByteOrder o s).lutValid = s.lutValid := rfl
@[simp] theorem withCodeByteOrder_fault (o : ByteOrder) (s : State) : (withCodeByteOrder o s).fault = s.fault := rfl
@[simp] theorem withCodeByteOrder_inputs (o : ByteOrder) (s : State) : (withCodeByteOrder o s).inputs = s.inputs := rfl
@[simp] theorem withCodeByteOrder_responses (o : ByteOrder) (s : State) : (withCodeByteOrder o s).responses = s.responses := rfl
@[simp] theorem withCodeByteOrder_resets (o : ByteOrder) (s : State) : (withCodeByteOrder o s).resets = s.resets := rfl
@[simp] theorem withCodeByteOrder_packFormat (o : ByteOrder) (s : State) :
    (withCodeByteOrder o s).params.packFormat = s.params.packFormat := rfl
@[simp] theorem withCodeByteOrder_lutFormat (o : ByteOrder) (s : State) :
    (withCodeByteOrder o s).params.lutFormat = s.params.lutFormat := rfl
@[simp] theorem withCodeByteOrder_satPolicy (o : ByteOrder) (s : State) :
    (withCodeByteOrder o s).params.satPolicy = s.params.satPolicy := rfl
@[simp] theorem withCodeByteOrder_codeByteOrder (o : ByteOrder) (s : State) :
    (withCodeByteOrder o s).params.codeByteOrder = o := rfl

end Sys2Proof.Machine
end

