-- ==== Sys2Proof/Laws/Ops.lean ====
section
/-! SUPPORT. What each shared operation and one step can do, said once. -/

namespace Sys2Proof.Machine

/-! ## The guard -/

/-- A block that is not stuck goes on. -/
theorem whenReady_of_ready {s : State} (t : State) (h : s.fault = none) : whenReady s t = .next t := by
  simp [whenReady, h]

/-- A stuck block answers its fault (60_exceptions.md R153). -/
theorem whenReady_of_stuck {s : State} {r : Fault} (t : State) (h : s.fault = some r) : whenReady s t = .fault r := by
  simp [whenReady, h]

/-- A guarded step that gives a next state was not stuck, and gives that state. -/
theorem whenReady_next {s t u : State} (h : whenReady s t = .next u) : s.fault = none ∧ u = t := by
  unfold whenReady at h
  split at h
  · next hf => exact ⟨hf, by cases h; rfl⟩
  · cases h

/-- A guarded step never refuses. -/
theorem whenReady_not_refused (s t : State) (r : Refusal) : whenReady s t ≠ .refused r := by
  unfold whenReady
  split <;> simp

/-! ## The build and the commands that read the table -/

/-- Everything the on-demand build can do. -/
theorem ensureLut_cases (s : State) :
    (s.lutValid = true ∧ ensureLut s = s) ∨
    (s.lutValid = false ∧ checkLut (buildTable s.params.lutFormat) = true ∧
      ensureLut s = { s with lut := buildTable s.params.lutFormat, lutValid := true }) ∨
    (s.lutValid = false ∧ checkLut (buildTable s.params.lutFormat) = false ∧
      ensureLut s = raiseFault .lutEntryNotFinite { s with lut := buildTable s.params.lutFormat }) := by
  cases hv : s.lutValid with
  | true => exact .inl ⟨rfl, by simp [ensureLut, hv]⟩
  | false =>
    cases hc : checkLut (buildTable s.params.lutFormat) with
    | true => exact .inr (.inl ⟨rfl, rfl, by simp [ensureLut, buildLut, hv, hc]⟩)
    | false => exact .inr (.inr ⟨rfl, rfl, by simp [ensureLut, buildLut, hv, hc]⟩)

/-- Everything a table-reading command of a block that is not stuck can do: it responds from the table that was there, or
from the one it builds, or its build faults and it delivers nothing. -/
theorem respondFromTable_cases (answer : State → Response) {s : State} (hf : s.fault = none) :
    (s.lutValid = true ∧ respondFromTable answer s = respond (answer s) s) ∨
    (s.lutValid = false ∧ checkLut (buildTable s.params.lutFormat) = true ∧
      respondFromTable answer s =
        respond (answer { s with lut := buildTable s.params.lutFormat, lutValid := true })
          { s with lut := buildTable s.params.lutFormat, lutValid := true }) ∨
    (s.lutValid = false ∧ checkLut (buildTable s.params.lutFormat) = false ∧
      respondFromTable answer s =
        raiseFault .lutEntryNotFinite { s with lut := buildTable s.params.lutFormat }) := by
  rcases ensureLut_cases s with ⟨hv, he⟩ | ⟨hv, hc, he⟩ | ⟨hv, hc, he⟩
  · exact .inl ⟨hv, by simp [respondFromTable, he, hf]⟩
  · exact .inr (.inl ⟨hv, hc, by simp [respondFromTable, he, hf]⟩)
  · exact .inr (.inr ⟨hv, hc, by simp [respondFromTable, he]⟩)

/-! ## One step -/

/-- Everything a step that gives a next state can do. -/
theorem step_cases {s t : State} (h : step s = .next t) :
    (s.inputs = [] ∧ s.fault = none ∧ t = s) ∨
    (∃ rest, s.inputs = .reset :: rest ∧ t = resetBlock (setInputs rest s)) ∨
    (∃ w rest, s.inputs = .resetDuring w :: rest ∧ t = resetBlock (setInputs rest s)) ∨
    (∃ w rest, s.inputs = .request w :: rest ∧ exec (decode w) (setInputs rest s) = .next t) := by
  unfold step at h
  split at h
  · next hi => exact .inl ⟨hi, whenReady_next h⟩
  · next rest hi => exact .inr (.inl ⟨rest, hi, by cases h; rfl⟩)
  · next w rest hi => exact .inr (.inr (.inl ⟨w, rest, hi, by cases h; rfl⟩))
  · next w rest hi => exact .inr (.inr (.inr ⟨w, rest, hi, h⟩))

end Sys2Proof.Machine
end

