-- ==== Sys2Proof/Laws/PerInstr.lean ====
section
/-! SUPPORT. Laws made per instruction. -/

namespace Sys2Proof.Laws

/-- The word of an instruction matches its row of the opcode table, and the row is one of the table's
(30_encoding.md R78, opcode_table.json). -/
def EncodeRow.Statement (i : Instr) : Prop :=
  encode i &&& (rowOf i).mask = (rowOf i).bits ∧ rowOf i ∈ opcodeTable

/-- The op field of a word put together from its fields, under the table's mask. -/
theorem requestWord_and_opMask (op : BitVec 2) (x y z : F32) (code : Code) :
    requestWord op x y z code &&& opMask = requestWord op 0#32 0#32 0#32 0#16 := by
  have hmask : opMask = requestWord 0b11#2 0#32 0#32 0#32 0#16 := by decide
  apply BitVec.eq_of_getLsbD_eq
  intro i hi
  rw [hmask, BitVec.getLsbD_and, getLsbD_requestWord, getLsbD_requestWord, getLsbD_requestWord]
  by_cases h1 : i < 112
  · simp [h1]
  · have h2 : i = 112 ∨ i = 113 := by omega
    rcases h2 with rfl | rfl <;> simp

theorem EncodeRow.pack (x y z : F32) : EncodeRow.Statement (.pack x y z) := by
  refine ⟨?_, by simp [rowOf, opcodeTable]⟩
  simp only [encode, rowOf, requestWord_and_opMask]
  decide

theorem EncodeRow.unpack (c : Code) : EncodeRow.Statement (.unpack c) := by
  refine ⟨?_, by simp [rowOf, opcodeTable]⟩
  simp only [encode, rowOf, requestWord_and_opMask]
  decide

theorem EncodeRow.buildLut : EncodeRow.Statement .buildLut := by
  refine ⟨?_, by simp [rowOf, opcodeTable]⟩
  simp only [encode, rowOf, requestWord_and_opMask]
  decide

theorem EncodeRow.lutRead (c : Code) : EncodeRow.Statement (.lutRead c) := by
  refine ⟨?_, by simp [rowOf, opcodeTable]⟩
  simp only [encode, rowOf, requestWord_and_opMask]
  decide

end Sys2Proof.Laws
end

