-- ==== Sys2Proof/Laws/Run.lean ====
section
/-! SUPPORT. What the observation of a run can be, said once. -/

namespace Sys2Proof.Machine

/-- Everything closing a run can do: it is observed exactly if each of its commands delivered a response and no
fault is recorded, and then shows those
responses and the final state. -/
theorem closeRun_eq_some_iff (before issued : Nat) (s : State) (o : Observation) :
    closeRun before issued s = some o ↔
      (s.responses.length = before + issued ∧ s.fault = none) ∧
        o = { responses := s.responses.drop before, final := finalState s } := by
  unfold closeRun
  split
  · next h => simp only [h, and_self, true_and, Option.some.injEq, eq_comm]
  · next h => simp [h]

/-- A run with a command that delivered no response has not ended. -/
theorem closeRun_of_missing_response {before issued : Nat} {s : State} (h : s.responses.length ≠ before + issued) :
    closeRun before issued s = none := by
  simp [closeRun, h]

/-- A run that reached the faulted state has not ended. -/
theorem closeRun_of_fault (before issued : Nat) {s : State} (h : s.fault ≠ none) : closeRun before issued s = none := by
  simp [closeRun, h]

@[simp] theorem finalState_respond (r : Response) (s : State) : finalState (respond r s) = finalState s := rfl
@[simp] theorem finalState_setInputs (l : List HostEvent) (s : State) : finalState (setInputs l s) = finalState s := rfl

/-- A reset between commands closes the run and begins another in the state of reset. -/
theorem observeFrom_reset (before issued : Nat) (s : State) (evs : List HostEvent) :
    observeFrom before issued s (.reset :: evs) =
      closeRun before issued s ::
        observeFrom s.responses.length 0 (resetBlock (setInputs [] s)) evs := rfl

/-- A reset that cuts a command counts that command without its response, and begins another run. -/
theorem observeFrom_resetDuring (before issued : Nat) (s : State) (w : Request) (evs : List HostEvent) :
    observeFrom before issued s (.resetDuring w :: evs) =
      closeRun before (issued + 1) s ::
        observeFrom s.responses.length 0 (resetBlock (setInputs [] s)) evs := rfl

end Sys2Proof.Machine
end

