-- ==== Sys2Proof/Machine/Assembler.lean ====
section
/-! DEFINITION. The spec's textual form of a command (30_encoding.md R84) and the source's API names (R85). The text is a
list of characters. What R84 leaves open of the grammar is log 16. -/

namespace Sys2Proof.Machine

/-- Why a line is no command. -/
inductive AsmError where
  /-- The mnemonic is none of the four, or the number of operands is not the command's. -/
  | badShape
  /-- An operand is no literal of 30_encoding.md R84. -/
  | badOperand
deriving DecidableEq, Repr

/-! ## Literals -/

/-- The value of a decimal digit. -/
def decDigit (c : Char) : Option Nat :=
  if 48 ≤ c.toNat ∧ c.toNat ≤ 57 then some (c.toNat - 48) else none

/-- The value of a hexadecimal digit, of either case (DESIGN CHOICE, log 16). -/
def hexDigit (c : Char) : Option Nat :=
  if 48 ≤ c.toNat ∧ c.toNat ≤ 57 then some (c.toNat - 48)
  else if 97 ≤ c.toNat ∧ c.toNat ≤ 102 then some (c.toNat - 87)
  else if 65 ≤ c.toNat ∧ c.toNat ≤ 70 then some (c.toNat - 55)
  else none

/-- The number that all of the characters spell, after those that spelt `acc`. -/
def digitsFrom (base : Nat) (digit : Char → Option Nat) : Nat → List Char → Option Nat
  | acc, [] => some acc
  | acc, c :: cs =>
    match digit c with
    | some d => digitsFrom base digit (acc * base + d) cs
    | none => none

/-- A non-empty run of decimal digits. -/
def parseDec : List Char → Option Nat
  | [] => none
  | c :: cs => digitsFrom 10 decDigit 0 (c :: cs)

/-- A non-empty run of hexadecimal digits. -/
def parseHex : List Char → Option Nat
  | [] => none
  | c :: cs => digitsFrom 16 hexDigit 0 (c :: cs)

/-- An unsigned integer, decimal or `0x` hexadecimal (30_encoding.md R84), of any number of digits and without a sign (DESIGN
CHOICE, log 16). -/
def parseUnsigned : List Char → Option Nat
  | '0' :: 'x' :: cs => parseHex cs
  | cs => parseDec cs

/-- `<code>` or `<index>`: an unsigned integer in [0, 65535] (30_encoding.md R84). -/
def parseCode (cs : List Char) : Option Code :=
  match parseUnsigned cs with
  | some n => if wellFormedCodeOperand n then some (BitVec.ofNat 16 n) else none
  | none => none

/-- The binary32 pattern nearest to `±num · 10^ex`, ties to even (30_encoding.md R84). DESIGN CHOICE (log 16), where R84 names
only the nearest value: a result of zero keeps the sign of the text, so a negative number too small to be anything but zero
(`-1e-60`) gives -0.0, as every form of zero with a minus sign does; and a number that rounds beyond the range gives the
infinity of its sign. -/
def decimalToF32 (neg : Bool) (num : Nat) (ex : Int) : F32 :=
  toBits32 0#32
    (if 0 ≤ ex then fpRoundQuotient binary32 neg (num * 10 ^ ex.toNat) 1 0
     else fpRoundQuotient binary32 neg num (10 ^ (-ex).toNat) 0)

/-- A sign and the rest: `(true, rest)` after a minus. A plus sign is accepted wherever a sign may stand (log 16). -/
def splitSign : List Char → Bool × List Char
  | '+' :: cs => (false, cs)
  | '-' :: cs => (true, cs)
  | cs => (false, cs)

/-- The exponent part: nothing, or `e` and a run of digits that may carry either sign (DESIGN CHOICE, log 16). -/
def parseExponent : List Char → Option Int
  | [] => some 0
  | 'e' :: cs =>
    match parseDec (splitSign cs).2 with
    | some n => some (if (splitSign cs).1 then -(n : Int) else (n : Int))
    | none => none
  | _ :: _ => none

/-- The number a run of digits with its decimal places spells, or none. An absent fraction has no places. -/
def parseMantissa (whole frac : List Char) : Option Nat :=
  match parseDec whole with
  | none => none
  | some n => digitsFrom 10 decDigit n frac

/-- Whether a character begins the exponent part. -/
def isExponentMark (c : Char) : Bool := c == 'e'

/-- A decimal number without its sign: digits, an optional point and digits, an optional exponent. DESIGN CHOICE (log 16):
leading zeros are allowed, and a point has a digit on each side. -/
def parseDecimal (neg : Bool) (cs : List Char) : Option F32 :=
  let mant := cs.takeWhile (fun c => !isExponentMark c)
  let exPart := cs.dropWhile (fun c => !isExponentMark c)
  let whole := mant.takeWhile (fun c => !(c == '.'))
  let after := mant.dropWhile (fun c => !(c == '.'))
  let frac := after.drop 1
  if after.length = 1 then none
  else
    match parseMantissa whole frac, parseExponent exPart with
    | some num, some ex => some (decimalToF32 neg num (ex - frac.length))
    | _, _ => none

/-- `<fx>`, `<fy>`, `<fz>` (30_encoding.md R84): a pattern, a NaN, an infinity or a decimal number. DESIGN CHOICE (log 16):
any decimal number may carry a leading plus sign, as `+0` does in R84 (`+1.5` is read as `1.5`). -/
def parseFloat : List Char → Option F32
  | 'f' :: '3' :: '2' :: ':' :: '0' :: 'x' :: cs =>
    if cs.length = 8 then (parseHex cs).map (BitVec.ofNat 32) else none
  | ['n', 'a', 'n'] => some 0x7fc00000#32
  | ['+', 'i', 'n', 'f'] => some 0x7f800000#32
  | ['-', 'i', 'n', 'f'] => some 0xff800000#32
  | cs => parseDecimal (splitSign cs).1 (splitSign cs).2

/-! ## Lines -/

/-- The line without its comment: `;` begins one that runs to the end of the line (30_encoding.md R84). -/
def stripComment (cs : List Char) : List Char := cs.takeWhile (fun c => !(c == ';'))

/-- The word being read, if any, before the words after it. -/
def flushWord (word : List Char) (rest : List (List Char)) : List (List Char) :=
  match word with
  | [] => rest
  | c :: cs => (c :: cs) :: rest

/-- The words of a line: blanks separate them, and a comma is a word of its own (DESIGN CHOICE, log 16). -/
def wordsFrom : List Char → List Char → List (List Char)
  | word, [] => flushWord word []
  | word, c :: cs =>
    if c = ' ' ∨ c = '\t' then flushWord word (wordsFrom [] cs)
    else if c = ',' then flushWord word ([','] :: wordsFrom [] cs)
    else wordsFrom (word ++ [c]) cs

/-- The command of the words of a line; an empty line holds none (DESIGN CHOICE, log 16). -/
def commandOf : List (List Char) → Except AsmError (Option Instr)
  | [] => .ok none
  | [['P', 'A', 'C', 'K'], fx, [','], fy, [','], fz] =>
    match parseFloat fx, parseFloat fy, parseFloat fz with
    | some x, some y, some z => .ok (some (.pack x y z))
    | _, _, _ => .error .badOperand
  | [['U', 'N', 'P', 'A', 'C', 'K'], c] =>
    match parseCode c with
    | some code => .ok (some (.unpack code))
    | none => .error .badOperand
  | [['B', 'U', 'I', 'L', 'D', '_', 'L', 'U', 'T']] => .ok (some .buildLut)
  | [['L', 'U', 'T', '_', 'R', 'E', 'A', 'D'], c] =>
    match parseCode c with
    | some code => .ok (some (.lutRead code))
    | none => .error .badOperand
  | _ => .error .badShape

/-- The command a line of text holds (30_encoding.md R84). -/
def parseLine (cs : List Char) : Except AsmError (Option Instr) := commandOf (wordsFrom [] (stripComment cs))

/-! ## The source's API (30_encoding.md R85) -/

/-- The names of the source's API, with their arguments. -/
inductive ApiCall where
  | buildTable
  | pack (x y z : F32)
  | unpack (c : Code)
  | wrapperNew (x y z : F32)
  | wrapperFromArray (a : Vec3)
  | wrapperFromCode (c : Code)
  | wrapperDecode (c : Code)
  | wrapperCode (c : Code)
deriving DecidableEq, Repr

/-- LUT_READ of `count` indices from `i` on. -/
def readOut : Nat → Nat → List Instr
  | 0, _ => []
  | count + 1, i => .lutRead (BitVec.ofNat 16 i) :: readOut count (i + 1)

/-- The commands an API call corresponds to (30_encoding.md R85); not an expansion the block performs. -/
def apiCommands : ApiCall → List Instr
  | .buildTable => .buildLut :: readOut nLut 0
  | .pack x y z => [.pack x y z]
  | .unpack c => [.unpack c]
  | .wrapperNew x y z => [.pack x y z]
  | .wrapperFromArray a => [.pack a.x a.y a.z]
  | .wrapperFromCode _ => []
  | .wrapperDecode c => [.unpack c]
  | .wrapperCode _ => []

end Sys2Proof.Machine
end

