-- ==== Sys2Proof/Tests/Slice0.lean ====
section
/-! SUPPORT. The model's own tests: words of the spec, one step on small states with the spec's expected results (the vector
of 95_test_vectors.md is named beside each), and for every statement with hypotheses a state and operands that meet them. -/

open Sys2Proof Sys2Proof.Machine

/-! ## WellFormed: every check refuses something -/

theorem test_request_of_115_bits_is_ill_formed : wellFormedRequest (2 ^ 114) = false := by decide
theorem test_widest_request_is_well_formed : wellFormedRequest (2 ^ 114 - 1) = true := by decide
theorem test_code_operand_65536_is_ill_formed : wellFormedCodeOperand 65536 = false := by decide
theorem test_code_operand_65535_is_well_formed : wellFormedCodeOperand 65535 = true := by decide
theorem test_every_constructor_is_well_formed :
    (Instr.pack 0 0 0).wellFormed && (Instr.unpack 0).wellFormed && Instr.buildLut.wellFormed &&
      (Instr.lutRead 0).wellFormed = true := by decide

/-! ## Decode: words written out from 30_encoding.md R75 -/

/-- V1: op 00, in_x = 0x3f800000 in bits 111:80. -/
theorem test_decode_pack :
    decodeTableWord 120 (0x3f800000 * 2 ^ 80 + 2 * 2 ^ 48 + 3 * 2 ^ 16 + 0xffff) =
      some (.pack 0x3f800000#32 2#32 3#32) := by decide
/-- V4: op 01, in_code in bits 15:0. -/
theorem test_decode_unpack : decodeTableWord 120 (2 ^ 112 + 0x00ff) = some (.unpack 0x00ff#16) := by decide
/-- B3: op 10, every operand bit set. -/
theorem test_decode_buildLut : decodeTableWord 120 0x2ffffffffffffffffffffffffffff = some .buildLut := by decide
/-- B5: op 11 with in_x = 0x12345678. -/
theorem test_decode_lutRead :
    decodeTableWord 120 0x3123456780000000000000000152a = some (.lutRead 0x152a#16) := by decide
theorem test_decode_rejects_a_wider_number : decodeTableWord 120 (2 ^ 114) = none := by decide
theorem test_opcode_rows_do_not_overlap :
    opcodeTable.Pairwise (fun a b => a.bits &&& b.mask ≠ b.bits) := by decide

/-! ## Steps on small states -/

/-- The response an outcome delivered last. -/
def lastResponse : Host.Outcome State Fault Refusal → Option Response
  | .next t => t.responses.getLast?
  | .fault _ => none
  | .refused _ => none

/-- The `lut_valid` of an outcome's state. -/
def validAfter : Host.Outcome State Fault Refusal → Option Bool
  | .next t => some t.lutValid
  | .fault _ => none
  | .refused _ => none

/-- A block whose table is valid and of which only `cells` are written down. -/
def blockWithTable (cells : Memory) : State := { State.reset with lut := cells, lutValid := true }

/-- V1, E1. -/
theorem test_pack_x_axis :
    lastResponse (step (State.reset.withFetchWord 120 0x03f80000000000000000000000000)) =
      some (.code 0x00ff#16) := by decide +kernel
/-- V5: PACK does not build the table. -/
theorem test_pack_does_not_build :
    validAfter (step (State.reset.withFetchWord 120 0x03f80000000000000000000000000)) = some false := by
  decide +kernel
/-- U24, boundary code with sx, sy, sz set; the factor is LUT entry 127 (B7). -/
theorem test_unpack_boundary :
    lastResponse (exec (.unpack 0xe07f#16) (blockWithTable [(127, 0x3c0100fe#32)])) =
      some (.vec { x := 0xbf7ffdf8#32, y := 0x80000000#32, z := 0x3c0100fe#32 }) := by decide +kernel
/-- U26, P5. -/
theorem test_unpack_general :
    lastResponse (exec (.unpack 0x9ac7#16) (blockWithTable [(0x1ac7, tableEntry .binary32 0x1ac7)])) =
      some (.vec { x := 0xbf19192b#32, y := 0x3f4d180e#32, z := 0x3cb8df99#32 }) := by decide +kernel
/-- B2: a second BUILD_LUT answers Done and writes nothing. -/
theorem test_buildLut_again :
    exec .buildLut (blockWithTable [(3, 7#32)]) =
      .next { blockWithTable [(3, 7#32)] with responses := [.done] } := rfl
/-- B6: bits 15:13 of the index are ignored. -/
theorem test_lutRead_masks :
    lastResponse (exec (.lutRead 0xf52a#16) (blockWithTable [(5418, 0x3c6138bb#32)])) =
      some (.word 0x3c6138bb#32) := by decide +kernel
/-- V6: a faulted block is stuck. -/
theorem test_faulted_is_stuck :
    exec .buildLut { State.reset with fault := some .lutEntryNotFinite } = .fault .lutEntryNotFinite := rfl

/-! ## The table function and the encoder's corners -/

/-- 95_test_vectors.md section 1.1, index 5418, both formats. -/
theorem test_entry_5418 :
    tableEntry .binary32 5418 = 0x3c6138bb#32 ∧ tableEntry .binary64 5418 = 0x3c6138ba#32 := by decide +kernel
/-- Index 4095 and the boundary index 8128. -/
theorem test_entries_folded :
    tableEntry .binary32 4095 = 0x3c22e5dd#32 ∧ tableEntry .binary32 8128 = 0x3c366d7f#32 := by decide +kernel
/-- E42 in its three columns. -/
theorem test_pack_truncation_sensitive :
    packCode Params.default 0xbf19999a#32 0x3f4ccccd#32 0#32 = 0x9ac7#16 ∧
    packCode { Params.default with packFormat := .binary64 } 0xbf19999a#32 0x3f4ccccd#32 0#32 = 0x9b47#16 := by
  decide +kernel
/-- E36 in its three columns: the saturated path. -/
theorem test_pack_saturated :
    packCode Params.default 0x80000000#32 1#32 0x80000001#32 = 0xffff#16 ∧
    packCode { Params.default with satPolicy := .mask } 0x80000000#32 1#32 0x80000001#32 = 0x207f#16 ∧
    packCode { Params.default with packFormat := .binary64 } 0x80000000#32 1#32 0x80000001#32 = 0x203f#16 := by
  decide +kernel
/-- E22, E24: a negative NaN sets no flag; an overflowing sum. -/
theorem test_pack_degenerate :
    packCode Params.default 0xffc00001#32 0xbf800000#32 0#32 = 0x4000#16 ∧
    packCode Params.default 0xff7fffff#32 0x7f7fffff#32 0x3f800000#32 = 0x8000#16 := by decide +kernel
/-- 30_encoding.md R84: `PACK -0.6,1e0,+0 ;x`. -/
theorem test_text_pack :
    parseLine ['P', 'A', 'C', 'K', ' ', '-', '0', '.', '6', ',', '1', 'e', '0', ',', ' ', '+', '0', ' ', ';', 'x'] =
      .ok (some (.pack 0xbf19999a#32 0x3f800000#32 0#32)) := by decide +kernel
/-- 30_encoding.md R84: an operand above 65535 is no `<code>`. -/
theorem test_text_code_too_large :
    parseLine ['U', 'N', 'P', 'A', 'C', 'K', ' ', '6', '5', '5', '3', '6'] = .error .badOperand := by decide +kernel

/-- 30_encoding.md R84 with log 16: a plus sign on a decimal number. -/
theorem test_text_plus_sign : parseFloat ['+', '1', '.', '5'] = some 0x3fc00000#32 := by decide +kernel

/-- 30_encoding.md R84 with log 16: a negative number that rounds to zero. -/
theorem test_text_tiny_negative : parseFloat ['-', '1', 'e', '-', '6', '0'] = some 0x80000000#32 := by decide +kernel

/-- R178: a PACK that is answered, one that a reset cuts, and one in the run after it. -/
theorem test_cut_run_has_not_ended :
    (observeRuns Params.default
        [.request 0x03f80000000000000000000000000#114, .resetDuring 0#114,
          .request 0x0ff80000000000000000000000000#114]).map (Option.map Observation.responses) =
      [none, some [.code 0x8000#16]] := by decide +kernel
/-- R178: a reset between commands leaves both runs observed. -/
theorem test_reset_between_commands :
    (observeRuns Params.default
        [.request 0x03f80000000000000000000000000#114, .reset]).map (Option.map Observation.responses) =
      [some [.code 0x00ff#16], some []] := by decide +kernel

/-! ## Witnesses: states and operands that meet the hypotheses of the statements -/

/-- A block right after reset, and one with its table built: the two clauses of the table-reading statements. -/
def builtBlock : State := { State.reset with lut := buildTable .binary32, lutValid := true }

theorem witness_inv_reset : Inv State.reset ∧ Safe State.reset ∧ State.reset.lutValid = false :=
  ⟨⟨rfl, fun _ h => (Bool.noConfusion h), fun h => (h rfl).elim⟩, rfl, rfl⟩

theorem witness_inv_built : Inv builtBlock ∧ Safe builtBlock ∧ builtBlock.lutValid = true :=
  ⟨⟨buildTable_wf _, fun _ _ _ hi => buildTable_read _ hi, fun h => (h rfl).elim⟩, rfl, rfl⟩

theorem witness_wellFormed : (Instr.lutRead 0xffff#16).wellFormed = true := rfl

theorem witness_StepRunsTheDecodedRequest :
    ({ State.reset with inputs := [.request 0#114, .reset] } : State).inputs = .request 0#114 :: [.reset] := rfl

theorem witness_IdleBlockKeepsItsState : State.reset.inputs = [] ∧ Safe State.reset := ⟨rfl, rfl⟩

/-- A faulted block with `evs` offered. -/
def faultedBlock (evs : List HostEvent) : State :=
  { State.reset with fault := some .lutEntryNotFinite, inputs := evs }

theorem witness_OnlyResetLeavesTheFaultedState :
    (faultedBlock []).fault = some .lutEntryNotFinite ∧ (faultedBlock []).inputs = [] ∧
    (faultedBlock [.request 0]).inputs = .request 0 :: [] ∧ (faultedBlock [.reset]).inputs = .reset :: [] ∧
    (faultedBlock [.resetDuring 0]).inputs = .resetDuring 0 :: [] ∧
    ∃ t, step (faultedBlock [.reset]) = .next t := ⟨rfl, rfl, rfl, rfl, rfl, _, rfl⟩

theorem witness_EveryStepKeepsTheInvariant :
    Inv State.reset ∧ step State.reset = .next State.reset := ⟨witness_inv_reset.1, rfl⟩

theorem witness_OnlyResetUndoesTheBuild :
    step builtBlock = .next builtBlock ∧ builtBlock.lutValid = true ∧
      ∀ rest w, builtBlock.inputs ≠ .reset :: rest ∧ builtBlock.inputs ≠ .resetDuring w :: rest :=
  ⟨rfl, rfl, fun _ _ => ⟨by simp [builtBlock, State.reset], by simp [builtBlock, State.reset]⟩⟩

theorem witness_NoStepReadsTheCodeByteOrder :
    step State.reset = .next State.reset ∧ step (faultedBlock []) = .fault .lutEntryNotFinite := ⟨rfl, rfl⟩

theorem witness_FrameOfEveryCommand :
    (∃ t, exec (.pack 1#32 0#32 0#32) State.reset = .next t) ∧ (∃ t, exec (.unpack 0#16) builtBlock = .next t) ∧
    (∃ t, exec .buildLut State.reset = .next t) ∧ (∃ t, exec (.lutRead 0#16) State.reset = .next t) ∧
    State.reset.lut.wf = true := ⟨⟨_, rfl⟩, ⟨_, rfl⟩, ⟨_, rfl⟩, ⟨_, rfl⟩, rfl⟩

theorem witness_TableNormsAndEntriesAreInRange : 0 < nLut ∧ 127 < nLut ∧ 5418 < nLut ∧ 8191 < nLut := by decide

theorem witness_LutReadIgnoresTheSignBits : 0x152a#16 &&& 0x1fff#16 = 0xf52a#16 &&& 0x1fff#16 := by decide

theorem witness_DecoderAndTableFoldAlike :
    codeClass 0x007e#16 = .unfolded ∧ codeClass 0x007f#16 = .boundary ∧ codeClass 0x1fc0#16 = .boundary ∧
      codeClass 0x00ff#16 = .folded := by decide

theorem witness_ZeroCoordinatesDecodeToSignedZeros :
    (unpackCoords 0x8000#16).xb = 0 ∧ (unpackCoords 0x407f#16).yb = 0 ∧ (unpackCoords 0x207e#16).zb = 0 := by decide

theorem witness_BuildLutAnswersDone : builtBlock.params.lutFormat = .binary32 := rfl

theorem witness_PackAlwaysAnswersACode :
    Safe State.reset ∧
    Params.default.packFormat = ({ Params.default with lutFormat := .binary64 } : Params).packFormat ∧
    Params.default.satPolicy = ({ Params.default with lutFormat := .binary64 } : Params).satPolicy := ⟨rfl, rfl, rfl⟩

theorem witness_DegenerateInputsPackToTheirSigns :
    (Safe State.reset ∧ State.reset.params.packFormat = .binary32) ∧
    ¬ NoNaN 0xffc00001#32 0#32 0#32 ∧
    (NoNaN 0x7f7fffff#32 0x7f7fffff#32 0#32 ∧
      sumOf .binary32 0x7f7fffff#32 0x7f7fffff#32 0#32 = .inf false) ∧
    (isZeroPattern 0x80000000#32 = true ∧ isZeroPattern 0#32 = true) :=
  ⟨⟨rfl, rfl⟩, by simp only [NoNaN]; decide, ⟨by simp only [NoNaN]; decide, by decide +kernel⟩, by decide⟩

theorem witness_AnInfiniteComponentMakesTheSumInfinite :
    NoNaN 0xff800000#32 0#32 0x7f800000#32 ∧ isInfPattern 0xff800000#32 = true ∧
      isInfPattern 0x7f800000#32 = true := by simp only [NoNaN]; decide

theorem witness_PackIgnoresZeroSignsAndNaNBits :
    (isZeroPattern 0x80000000#32 = true ∧ isZeroPattern 0#32 = true) ∧
    (isNaNPattern 0x7f800001#32 = true ∧ isNaNPattern 0xffffffff#32 = true) := by decide

/-- A value with a positive significand and no sign is positive and finite. -/
theorem positiveFinite_of_eq {v : Fp} {m : Nat} {e : Int} (h : v = .fin false m e) (hm : 0 < m) : PositiveFinite v := by
  subst h
  refine ⟨rfl, ?_⟩
  have : (0 : ℚ) < (m : ℚ) := by exact_mod_cast hm
  simp only [fpValue, Bool.false_eq_true, if_false, one_mul]
  positivity

theorem sMin_eq : sMin = .fin false 16515073 (-145) := by decide +kernel

theorem witness_SMinIsTheLeastSumWithAFiniteWeight :
    fpCanonical binary32 (ofBits32 0x02fc0000#32) = true ∧ PositiveFinite (ofBits32 0x02fc0000#32) ∧
    fpCanonical binary32 sMin = true ∧ PositiveFinite sMin :=
  ⟨by decide +kernel, positiveFinite_of_eq (m := 16515072) (e := -145) (by decide +kernel) (by decide),
    by decide +kernel, positiveFinite_of_eq sMin_eq (by decide)⟩

/-- The saturated path for the operands whose sum is `m · 2^e`, below S_MIN. -/
theorem saturatedPath_of_sum {x y z : F32} {m : Nat} {e : Int} (hn : NoNaN x y z)
    (hs : sumOf .binary32 x y z = .fin false m e) (hm : 0 < m)
    (hlt : (m : ℚ) * (2 : ℚ) ^ e < 16515073 * (2 : ℚ) ^ (-145 : Int)) : SaturatedPath .binary32 x y z := by
  refine ⟨rfl, hn, positiveFinite_of_eq hs hm, ?_⟩
  rw [hs, sMin_eq]
  simpa [fpValue] using hlt

/-- One witness for each row of 41_encoder.md R117's table; the first at the largest sum below S_MIN. -/
theorem witness_SaturatedPathCodes :
    (Safe State.reset ∧ State.reset.params.packFormat = .binary32) ∧
    SaturatedPath .binary32 0x02fc0000#32 0#32 0#32 ∧ SaturatedPath .binary32 0#32 1#32 0#32 ∧
    SaturatedPath .binary32 1#32 1#32 0#32 ∧ SaturatedPath .binary32 0#32 0#32 1#32 :=
  ⟨⟨rfl, rfl⟩, saturatedPath_of_sum (m := 16515072) (e := -145) (by simp only [NoNaN]; decide) (by decide +kernel) (by decide)
      (by norm_num),
    saturatedPath_of_sum (m := 1) (e := -149) (by simp only [NoNaN]; decide) (by decide +kernel) (by decide)
      (by norm_num),
    saturatedPath_of_sum (m := 2) (e := -149) (by simp only [NoNaN]; decide) (by decide +kernel) (by decide)
      (by norm_num),
    saturatedPath_of_sum (m := 1) (e := -149) (by simp only [NoNaN]; decide) (by decide +kernel) (by decide)
      (by norm_num)⟩

/-- The same rows under the policy mask: a block of such an instance, and the saturated path in its format. -/
theorem witness_SaturatedPathCodes_mask :
    Safe (resetWith { Params.default with satPolicy := .mask }) ∧
    (resetWith { Params.default with satPolicy := .mask }).params.satPolicy = .mask ∧
    SaturatedPath (resetWith { Params.default with satPolicy := .mask }).params.packFormat 0x02fc0000#32 0#32 0#32 ∧
    SaturatedPath (resetWith { Params.default with satPolicy := .mask }).params.packFormat 0#32 1#32 0#32 ∧
    SaturatedPath (resetWith { Params.default with satPolicy := .mask }).params.packFormat 1#32 1#32 0#32 ∧
    SaturatedPath (resetWith { Params.default with satPolicy := .mask }).params.packFormat 0#32 0#32 1#32 :=
  ⟨rfl, rfl, witness_SaturatedPathCodes.2⟩

/-- The ordinary case for the operands whose sum is `m · 2^e`, at least S_MIN. -/
theorem ordinaryCase_of_sum {fmt : ArithFormat} {x y z : F32} {m : Nat} {e : Int} (hn : NoNaN x y z)
    (hs : sumOf fmt x y z = .fin false m e) (hm : 0 < m)
    (hge : 16515073 * (2 : ℚ) ^ (-145 : Int) ≤ (m : ℚ) * (2 : ℚ) ^ e ∨ fmt = .binary64) :
    OrdinaryCase fmt x y z := by
  refine ⟨hn, positiveFinite_of_eq hs hm, fun h32 => ?_⟩
  rcases hge with hge | h64
  · rw [hs, sMin_eq]
    simpa [fpValue] using hge
  · rw [h64] at h32; cases h32

/-- The ordinary case at S_MIN itself, at xi = 63 and at xi = 64 (E37, E12, E10), and the least sum under binary64 (E29). -/
theorem witness_OrdinaryCodesHoldTheProjections :
    (Safe State.reset ∧ State.reset.params.packFormat = .binary32) ∧
    OrdinaryCase .binary32 0x02fc0001#32 0#32 0#32 ∧
    (OrdinaryCase .binary32 0x427c0000#32 0x427c0000#32 0#32 ∧
      (projectionsOf .binary32 0x427c0000#32 0x427c0000#32 0#32).xi.toNat = 63) ∧
    (OrdinaryCase .binary32 0x42800000#32 0x42780000#32 0#32 ∧
      (projectionsOf .binary32 0x42800000#32 0x42780000#32 0#32).xi.toNat = 64) ∧
    OrdinaryCase .binary64 1#32 0#32 0#32 :=
  ⟨⟨rfl, rfl⟩, ordinaryCase_of_sum (m := 16515073) (e := -145) (by simp only [NoNaN]; decide) (by decide +kernel) (by decide)
      (.inl le_rfl),
    ⟨ordinaryCase_of_sum (m := 16515072) (e := -17) (by simp only [NoNaN]; decide) (by decide +kernel) (by decide)
      (.inl (by norm_num)), by decide +kernel⟩,
    ⟨ordinaryCase_of_sum (m := 16515072) (e := -17) (by simp only [NoNaN]; decide) (by decide +kernel) (by decide)
      (.inl (by norm_num)), by decide +kernel⟩,
    ordinaryCase_of_sum (m := 2 ^ 52) (e := -201) (by simp only [NoNaN]; decide) (by decide +kernel) (by decide)
      (.inr rfl)⟩

theorem witness_PoliciesAgreeOutsideTheSaturatedPath : ¬ SaturatedPath .binary64 1#32 0#32 0#32 :=
  fun h => by cases h.1

theorem witness_BlockRefinesAStatelessCodec :
    Inv { State.reset with inputs := [.request 0#114, .reset] } ∧
    ({ State.reset with inputs := [.request 0#114, .reset] } : State).inputs =
      ([0#114] : Program).map .request ++ [.reset] :=
  ⟨⟨rfl, fun _ h => (Bool.noConfusion h), fun h => (h rfl).elim⟩, rfl⟩

theorem witness_TheTableIsUnobservable :
    Inv State.reset ∧ Safe State.reset ∧ Inv builtBlock ∧ Safe builtBlock ∧
    State.reset.params = builtBlock.params ∧ State.reset.inputs = builtBlock.inputs ∧
    State.reset.responses = builtBlock.responses :=
  ⟨witness_inv_reset.1, rfl, witness_inv_built.1, rfl, rfl, rfl, rfl⟩

/-- 1.0, the least subnormal, the greatest value and -0.0, in binary32 and 1.0 in binary64. -/
theorem witness_rounding_operands :
    fpCanonical binary32 (.fin false 8388608 (-23)) = true ∧ fpCanonical binary32 (.fin false 1 (-149)) = true ∧
    fpCanonical binary32 (.fin true 16777215 104) = true ∧ fpCanonical binary32 (.fin true 0 (-149)) = true ∧
    fpCanonical binary64 (.fin false (2 ^ 52) (-52)) = true ∧ fpIsFinite (.fin true 16777215 104) = true := by
  decide +kernel

theorem witness_DivisionIsCorrectlyRounded : fpValue (.fin false 8388608 (-23)) ≠ 0 := by
  norm_num [fpValue]

theorem witness_SquareRootIsCorrectlyRounded :
    fpCanonical binary32 (.fin false 1 (-149)) = true ∧ PositiveFinite (.fin false 1 (-149)) :=
  ⟨by decide +kernel, positiveFinite_of_eq rfl (by decide)⟩

theorem witness_SmallIntegersConvertExactly : |(-(2 ^ 24) : Int)| ≤ 2 ^ 24 := by decide

theorem witness_PatternsAndValuesCorrespond :
    isNaNPattern 0x7f800000#32 = false ∧ isNaNPattern 0x7f800001#32 = true := by decide

theorem witness_SpecialOperandsOfTheRules : Fp.fin false 0 0 ≠ .nan ∧ Fp.fin false 0 0 ≠ .inf true := by decide
end

section
/-! SUPPORT. The number that a finite value denotes, and the order of these numbers (00_scope.md R7, R12). -/

namespace Sys2Proof.Machine

/-- The finite values are those of the third form. -/
theorem eq_fin_of_fpIsFinite {v : Fp} (h : fpIsFinite v = true) : ∃ neg m e, v = .fin neg m e := by
  cases v with
  | nan => cases h
  | inf neg => cases h
  | fin neg m e => exact ⟨neg, m, e, rfl⟩

/-- The sign of a value as a factor. -/
def signFactor (neg : Bool) : ℚ := if neg then -1 else 1

@[simp] theorem signFactor_true : signFactor true = -1 := rfl

@[simp] theorem signFactor_false : signFactor false = 1 := rfl

theorem signFactor_xor (a b : Bool) : signFactor (a ^^ b) = signFactor a * signFactor b := by
  cases a <;> cases b <;> norm_num

theorem fpValue_fin (neg : Bool) (m : Nat) (e : Int) :
    fpValue (.fin neg m e) = signFactor neg * m * (2 : ℚ) ^ e := rfl

@[simp] theorem fpValue_fin_zero (neg : Bool) (e : Int) : fpValue (.fin neg 0 e) = 0 := by simp [fpValue_fin]

theorem fpValue_fin_false (m : Nat) (e : Int) : fpValue (.fin false m e) = m * (2 : ℚ) ^ e := by simp [fpValue_fin]

theorem fpValue_fin_true (m : Nat) (e : Int) : fpValue (.fin true m e) = -(m * (2 : ℚ) ^ e) := by simp [fpValue_fin]

/-- A significand moved to a lower exponent. -/
theorem natCast_mul_two_pow_toNat (m : Nat) {e q : Int} (h : q ≤ e) :
    ((m * 2 ^ (e - q).toNat : Nat) : ℚ) * (2 : ℚ) ^ q = m * (2 : ℚ) ^ e := by
  have hexp : ((e - q).toNat : Int) = e - q := Int.toNat_of_nonneg (by omega)
  push_cast
  rw [mul_assoc, ← zpow_natCast, hexp, ← zpow_add₀ two_ne_zero, sub_add_cancel]

/-- The signed significand at a lower exponent denotes the same number. -/
theorem signedAt_mul (neg : Bool) (m : Nat) {e q : Int} (h : q ≤ e) :
    (signedAt neg m e q : ℚ) * (2 : ℚ) ^ q = fpValue (.fin neg m e) := by
  have hm := natCast_mul_two_pow_toNat m h
  cases neg with
  | false => rw [fpValue_fin_false, ← hm]; simp [signedAt]
  | true => rw [fpValue_fin_true, ← hm]; simp [signedAt]

/-- An integer times a power of two, as a sign and a magnitude. -/
theorem fpValue_fin_natAbs (s : Int) (q : Int) :
    fpValue (.fin (decide (s < 0)) s.natAbs q) = (s : ℚ) * (2 : ℚ) ^ q := by
  rcases lt_or_ge s 0 with h | h
  · rw [decide_eq_true h, fpValue_fin_true, Nat.cast_natAbs, abs_of_neg h]; push_cast; ring
  · rw [decide_eq_false (not_lt.2 h), fpValue_fin_false, Nat.cast_natAbs, abs_of_nonneg h]

/-! ## The order of the values (00_scope.md R12) -/

/-- On finite values the ordered less-than is the order of the numbers: both are compared at one exponent. -/
theorem fpLt_fin_iff (na nb : Bool) (ma mb : Nat) (ea eb : Int) :
    fpLt (.fin na ma ea) (.fin nb mb eb) = true ↔ fpValue (.fin na ma ea) < fpValue (.fin nb mb eb) := by
  have hpos : (0 : ℚ) < 2 ^ min ea eb := zpow_pos two_pos _
  rw [← signedAt_mul na ma (min_le_left ea eb), ← signedAt_mul nb mb (min_le_right ea eb),
    mul_lt_mul_iff_of_pos_right hpos, Int.cast_lt, fpLt, decide_eq_true_eq]

end Sys2Proof.Machine
end

section
/-! SUPPORT. The rounding core: what `fpRound` does to a significand, and that it is roundTiesToEven (00_scope.md R9).

The number that is rounded may be irrational (a square root), so the argument runs over the reals. `RoundsReal` is the
statements' `RoundsTo` for a real number (`roundsReal_ratCast`). -/

namespace Sys2Proof.Machine

/-! ## Correct rounding of a real number -/

/-- No representable value is nearer to `x` than `r`, and none other is as near unless the significand `m` is even. -/
def IsNearest (F : FpFormat) (x : ℝ) (m : Nat) (r : ℝ) : Prop :=
  ∀ v, fpCanonical F v = true → fpIsFinite v = true →
    |x - r| ≤ |x - (fpValue v : ℝ)| ∧
      (|x - r| = |x - (fpValue v : ℝ)| → (fpValue v : ℝ) ≠ r → m % 2 = 0)

/-- `RoundsTo` for a real number. -/
def RoundsReal (F : FpFormat) (x : ℝ) : Fp → Prop
  | .nan => False
  | .inf neg => (overflowBound F : ℝ) ≤ |x| ∧ (neg = true ↔ x < 0)
  | .fin neg m e =>
    fpCanonical F (.fin neg m e) = true ∧ |x| < (overflowBound F : ℝ) ∧ (x ≠ 0 → (neg = true ↔ x < 0)) ∧
      IsNearest F x m (fpValue (.fin neg m e) : ℝ)

/-- On rational numbers the two notions of correct rounding are one. -/
theorem roundsReal_ratCast (F : FpFormat) (x : ℚ) (r : Fp) : RoundsReal F (x : ℝ) r ↔ RoundsTo F x r := by
  cases r with
  | nan => exact Iff.rfl
  | inf neg => unfold RoundsReal RoundsTo; norm_cast
  | fin neg m e => unfold RoundsReal RoundsTo IsNearest; norm_cast

theorem abs_signFactor (neg : Bool) : |(signFactor neg : ℝ)| = 1 := by cases neg <;> simp

theorem signFactor_mul_self (neg : Bool) : (signFactor neg : ℝ) * signFactor neg = 1 := by cases neg <;> simp

/-- The sign of a signed positive number. -/
theorem signFactor_mul_neg_iff (neg : Bool) {X : ℝ} (h : 0 < X) : neg = true ↔ (signFactor neg : ℝ) * X < 0 := by
  cases neg with
  | false => simpa using h.le
  | true => simpa using h

theorem abs_signFactor_mul (neg : Bool) {X : ℝ} (h : 0 ≤ X) : |(signFactor neg : ℝ) * X| = X := by
  rw [abs_mul, abs_signFactor, one_mul, abs_of_nonneg h]

theorem cast_fpValue_fin (neg : Bool) (m : Nat) (e : Int) :
    (fpValue (.fin neg m e) : ℝ) = signFactor neg * (m * (2 : ℝ) ^ e) := by
  rw [fpValue_fin]; push_cast; ring

/-- The distance of two numbers that share a sign and a scale. -/
theorem abs_signed_sub (neg : Bool) (y w : ℝ) (q : Int) :
    |(signFactor neg : ℝ) * (y * 2 ^ q) - signFactor neg * (w * 2 ^ q)| = |y - w| * 2 ^ q := by
  rw [← mul_sub, ← sub_mul, abs_mul, abs_signFactor, one_mul, abs_mul, abs_of_pos (a := (2 : ℝ) ^ q) (by positivity)]

/-! ## Rounding to an integer -/

/-- `t` is `y` rounded to an integer, ties to even. -/
structure NearestEven (y : ℝ) (t : Nat) : Prop where
  ge : (t : ℝ) - 1 / 2 ≤ y
  le : y ≤ t + 1 / 2
  even : y = t - 1 / 2 ∨ y = t + 1 / 2 → t % 2 = 0

/-- An integer rounds to itself. -/
theorem nearestEven_natCast (t : Nat) : NearestEven t t where
  ge := by linarith
  le := by linarith
  even := by rintro (h | h) <;> linarith

/-- An integer strictly within a half is the rounded number. -/
theorem nearestEven_of_lt {y : ℝ} {t : Nat} (h1 : (t : ℝ) - 1 / 2 < y) (h2 : y < t + 1 / 2) : NearestEven y t where
  ge := h1.le
  le := h2.le
  even := by rintro (h | h) <;> linarith

/-- No integer is nearer than the rounded number, and none is as near unless that is even. -/
theorem NearestEven.nearest {y : ℝ} {t : Nat} (h : NearestEven y t) (k : Int) :
    |y - t| ≤ |y - k| ∧ (|y - t| = |y - k| → (k : ℝ) ≠ t → t % 2 = 0) := by
  obtain ⟨hge, hle, heven⟩ := h
  have habs : |y - t| ≤ 1 / 2 := abs_le.2 ⟨by linarith, by linarith⟩
  rcases lt_trichotomy k (t : Int) with hlt | heq | hgt
  · have hk : (k : ℝ) ≤ t - 1 := by exact_mod_cast Int.le_sub_one_of_lt hlt
    have hfar : 1 / 2 ≤ |y - k| := le_trans (by linarith) (le_abs_self _)
    refine ⟨habs.trans hfar, fun htie _ => heven (.inl ?_)⟩
    rw [abs_of_nonneg (by linarith : (0 : ℝ) ≤ y - k)] at htie hfar
    linarith
  · subst heq; simp
  · have hk : (t : ℝ) + 1 ≤ k := by exact_mod_cast hgt
    have hfar : 1 / 2 ≤ |y - k| := le_trans (by linarith) (neg_le_abs _)
    refine ⟨habs.trans hfar, fun htie _ => heven (.inr ?_)⟩
    rw [abs_of_nonpos (by linarith : y - k ≤ 0)] at htie hfar
    linarith

/-! ## Rounded significands -/

/-- A number `y · 2^q` whose last place in the format is `2^q`, and its rounded significand `t`. -/
structure RoundedSig (F : FpFormat) (y : ℝ) (t : Nat) (q : Int) : Prop where
  nonneg : 0 ≤ y
  nearest : NearestEven y t
  lt : y < 2 ^ fpPrec F
  full : 2 ^ (fpPrec F - 1) ≤ y ∨ q = fpQmin F
  qmin_le : fpQmin F ≤ q

variable {F : FpFormat} {y : ℝ} {t : Nat} {q : Int}

theorem RoundedSig.sig_le (h : RoundedSig F y t q) : t ≤ 2 ^ fpPrec F := by
  have h1 : (t : ℝ) < (2 ^ fpPrec F : Nat) + 1 := by
    push_cast; linarith [h.nearest.ge, h.lt]
  exact Nat.lt_succ_iff.1 (by exact_mod_cast h1)

theorem RoundedSig.sig_full (h : RoundedSig F y t q) : 2 ^ (fpPrec F - 1) ≤ t ∨ q = fpQmin F := by
  refine h.full.imp_left fun hy => ?_
  have h1 : ((2 ^ (fpPrec F - 1) : Nat) : ℝ) < t + 1 := by
    push_cast; linarith [h.nearest.le]
  exact Nat.lt_succ_iff.1 (by exact_mod_cast h1)

theorem fpPrec_sub_one (F : FpFormat) : fpPrec F - 1 = F.fracBits := rfl

/-- The full significand's bound is twice the hidden bit. -/
theorem two_pow_fpPrec {R : Type*} [Semiring R] (F : FpFormat) : (2 : R) ^ fpPrec F = 2 * 2 ^ (fpPrec F - 1) := by
  rw [fpPrec_sub_one, fpPrec, pow_succ']

/-- A representable value seen from the place `2^q`: an integer, or below the full significands of that place. -/
theorem canonical_at_place (neg : Bool) (q : Int) {v : Fp} (hv : fpCanonical F v = true)
    (hf : fpIsFinite v = true) :
    ∃ w : ℝ, (fpValue v : ℝ) = signFactor neg * (w * 2 ^ q) ∧
      ((∃ k : Int, w = k) ∨ (q ≠ fpQmin F ∧ w < 2 ^ (fpPrec F - 1))) := by
  obtain ⟨n, m, e, rfl⟩ := eq_fin_of_fpIsFinite hf
  simp only [fpCanonical, decide_eq_true_eq] at hv
  obtain ⟨hm, hqe, -, -⟩ := hv
  have hσ := signFactor_mul_self neg
  rcases le_or_gt q e with hle | hlt
  · -- at or above the place: an integer
    obtain ⟨j, hj⟩ : ∃ j : Int, (j : ℚ) = signFactor neg * signedAt n m e q := by
      cases neg with
      | false => exact ⟨signedAt n m e q, by simp⟩
      | true => exact ⟨-signedAt n m e q, by simp⟩
    have hjR : (j : ℝ) = signFactor neg * (signedAt n m e q : ℝ) := by exact_mod_cast congrArg (Rat.cast (K := ℝ)) hj
    refine ⟨j, ?_, .inl ⟨j, rfl⟩⟩
    have hval : (fpValue (.fin n m e) : ℝ) = (signedAt n m e q : ℝ) * 2 ^ q := by
      rw [← signedAt_mul n m hle]; push_cast; rfl
    rw [hval, hjR, mul_assoc, ← mul_assoc, hσ, one_mul]
  · -- below the place: too small for a full significand
    refine ⟨signFactor neg * (fpValue (.fin n m e) : ℝ) * 2 ^ (-q), ?_, .inr ⟨by omega, ?_⟩⟩
    · rw [mul_assoc _ ((2 : ℝ) ^ (-q)), ← zpow_add₀ two_ne_zero, neg_add_cancel, zpow_zero, mul_one, ← mul_assoc, hσ,
        one_mul]
    · have hscale : (2 : ℝ) ^ e * 2 ^ (-q) ≤ 2⁻¹ := by
        rw [← zpow_add₀ two_ne_zero, ← zpow_neg_one]
        exact zpow_le_zpow_right₀ one_le_two (by omega)
      have hmR : (m : ℝ) < 2 * 2 ^ (fpPrec F - 1) := by rw [← two_pow_fpPrec]; exact_mod_cast hm
      calc signFactor neg * (fpValue (.fin n m e) : ℝ) * 2 ^ (-q)
          ≤ |signFactor neg * (fpValue (.fin n m e) : ℝ) * 2 ^ (-q)| := le_abs_self _
        _ = m * (2 ^ e * 2 ^ (-q)) := by
          rw [cast_fpValue_fin, abs_mul, abs_mul, abs_mul, abs_signFactor, abs_signFactor, one_mul, one_mul,
            abs_of_nonneg (by positivity), abs_of_nonneg (by positivity), mul_assoc]
        _ ≤ m * 2⁻¹ := mul_le_mul_of_nonneg_left hscale (Nat.cast_nonneg m)
        _ < 2 ^ (fpPrec F - 1) := by linarith

/-- The rounded significand gives a nearest representable value, the even one of two. -/
theorem RoundedSig.isNearest (h : RoundedSig F y t q) (neg : Bool) :
    IsNearest F (signFactor neg * (y * 2 ^ q)) t (signFactor neg * (t * 2 ^ q)) := by
  intro v hv hf
  have hpos : (0 : ℝ) < 2 ^ q := zpow_pos two_pos q
  obtain ⟨w, hw, hcase⟩ := canonical_at_place neg q hv hf
  rw [hw, abs_signed_sub, abs_signed_sub, mul_le_mul_iff_left₀ hpos, mul_left_inj' hpos.ne']
  rcases hcase with ⟨k, rfl⟩ | ⟨hne, hsmall⟩
  · obtain ⟨hle, heven⟩ := h.nearest.nearest k
    exact ⟨hle, fun htie hvr => heven htie fun hkt => hvr (by rw [hkt])⟩
  · -- the least full significand lies between `w` and `y`, and is no nearer than `t`
    have hfull : (2 : ℝ) ^ (fpPrec F - 1) ≤ y := h.full.resolve_right hne
    have hle := (h.nearest.nearest (2 ^ (fpPrec F - 1))).1
    push_cast at hle
    rw [abs_of_nonneg (sub_nonneg.2 hfull)] at hle
    have hlt : |y - t| < |y - w| := lt_of_le_of_lt hle (lt_of_lt_of_le (by linarith) (le_abs_self _))
    exact ⟨hlt.le, fun htie => absurd htie hlt.ne⟩

/-- A rounded significand is out of range: past the last exponent, or carried out of its significand. -/
def SigOverflows (F : FpFormat) (t : Nat) (q : Int) : Prop := fpQmax F < q ∨ (q = fpQmax F ∧ t = 2 ^ fpPrec F)

/-- What finishing a rounded significand can do. -/
theorem fpFinish_cases (F : FpFormat) (neg : Bool) (t : Nat) (q : Int) :
    (SigOverflows F t q ∧ fpFinish F neg t q = .inf neg) ∨
    (¬ SigOverflows F t q ∧ t = 2 ^ fpPrec F ∧ fpFinish F neg t q = .fin neg (2 ^ (fpPrec F - 1)) (q + 1)) ∨
    (¬ SigOverflows F t q ∧ fpFinish F neg t q = .fin neg t q) := by
  unfold SigOverflows
  by_cases ht : t = 2 ^ fpPrec F
  · by_cases hq : fpQmax F < q + 1
    · exact .inl ⟨by omega, by simp [fpFinish, ht, hq]⟩
    · exact .inr (.inl ⟨by omega, ht, by simp [fpFinish, ht, hq]⟩)
  · by_cases hq : fpQmax F < q
    · exact .inl ⟨.inl hq, by simp [fpFinish, ht, hq]⟩
    · exact .inr (.inr ⟨by tauto, by simp [fpFinish, ht, hq]⟩)

theorem cast_overflowBound (F : FpFormat) :
    (overflowBound F : ℝ) = ((2 : ℝ) ^ fpPrec F - 1 / 2) * 2 ^ fpQmax F := by
  rw [overflowBound]; push_cast; ring

/-- The overflow bound is where the rounded significand goes out of range. -/
theorem RoundedSig.overflowBound_le_iff (h : RoundedSig F y t q) :
    (overflowBound F : ℝ) ≤ y * 2 ^ q ↔ SigOverflows F t q := by
  have hQ : (0 : ℝ) < 2 ^ fpQmax F := zpow_pos two_pos _
  have hprec := two_pow_fpPrec (R := ℝ) F
  have hone : (1 : ℝ) ≤ 2 ^ (fpPrec F - 1) := one_le_pow₀ one_le_two
  rw [cast_overflowBound, SigOverflows]
  rcases lt_trichotomy q (fpQmax F) with hlt | rfl | hgt
  · -- a lower exponent stays below half of the bound
    have hscale : (2 : ℝ) ^ q * 2 ≤ 2 ^ fpQmax F := by
      rw [← zpow_add_one₀ two_ne_zero]; exact zpow_le_zpow_right₀ one_le_two hlt
    refine iff_of_false (not_le.2 ?_) (by omega)
    calc y * 2 ^ q ≤ 2 ^ fpPrec F * 2 ^ q := mul_le_mul_of_nonneg_right h.lt.le (zpow_pos two_pos q).le
      _ = 2 ^ (fpPrec F - 1) * (2 ^ q * 2) := by rw [hprec]; ring
      _ ≤ 2 ^ (fpPrec F - 1) * 2 ^ fpQmax F := mul_le_mul_of_nonneg_left hscale (by linarith)
      _ < (2 ^ fpPrec F - 1 / 2) * 2 ^ fpQmax F := mul_lt_mul_of_pos_right (by linarith) hQ
  · -- the last exponent: the carry happens from the midpoint on
    rw [mul_le_mul_iff_left₀ hQ]
    constructor
    · intro hy
      have hge : 2 ^ fpPrec F ≤ t + 1 := by
        have : ((2 ^ fpPrec F : Nat) : ℝ) ≤ t + 1 := by push_cast; linarith [h.nearest.le]
        exact_mod_cast this
      rcases Nat.lt_or_ge t (2 ^ fpPrec F) with hlt | hge'
      · -- the midpoint itself is a tie, and the lower neighbour is odd
        have ht : t + 1 = 2 ^ fpPrec F := by omega
        have htR : (t : ℝ) + 1 = 2 ^ fpPrec F := by exact_mod_cast ht
        have heven := h.nearest.even (.inr (le_antisymm h.nearest.le (by linarith)))
        rw [fpPrec, pow_succ] at ht
        omega
      · exact .inr ⟨rfl, le_antisymm h.sig_le hge'⟩
    · rintro (hlt | ⟨-, rfl⟩)
      · exact absurd hlt (lt_irrefl _)
      · have := h.nearest.ge
        push_cast at this
        exact this
  · -- a higher exponent has a full significand
    have hscale : (2 : ℝ) ^ fpQmax F * 2 ≤ 2 ^ q := by
      rw [← zpow_add_one₀ two_ne_zero]; exact zpow_le_zpow_right₀ one_le_two hgt
    have hfull : (2 : ℝ) ^ (fpPrec F - 1) ≤ y := h.full.resolve_right (by have := fpQmin_le_fpQmax F; omega)
    refine iff_of_true ?_ (.inl hgt)
    calc (2 ^ fpPrec F - 1 / 2) * 2 ^ fpQmax F ≤ 2 ^ fpPrec F * 2 ^ fpQmax F :=
          mul_le_mul_of_nonneg_right (by linarith) hQ.le
      _ = 2 ^ (fpPrec F - 1) * (2 ^ fpQmax F * 2) := by rw [hprec]; ring
      _ ≤ y * 2 ^ q := mul_le_mul hfull hscale (by positivity) h.nonneg

/-- Finishing a rounded significand rounds correctly. -/
theorem RoundedSig.fpFinish_rounds (h : RoundedSig F y t q) (hF : 0 < F.fracBits) (neg : Bool) :
    RoundsReal F (signFactor neg * (y * 2 ^ q)) (fpFinish F neg t q) := by
  have hnn : 0 ≤ y * (2 : ℝ) ^ q := mul_nonneg h.nonneg (zpow_pos two_pos q).le
  have hcan := fpFinish_canonical F neg t q h.sig_le h.qmin_le h.sig_full
  have hnear := h.isNearest neg
  have hsign : signFactor neg * (y * (2 : ℝ) ^ q) ≠ 0 → (neg = true ↔ signFactor neg * (y * (2 : ℝ) ^ q) < 0) :=
    fun hne => signFactor_mul_neg_iff neg (lt_of_le_of_ne hnn fun h0 => hne (by rw [← h0, mul_zero]))
  rcases fpFinish_cases F neg t q with ⟨hover, hr⟩ | ⟨hin, ht, hr⟩ | ⟨hin, hr⟩
  · rw [hr, RoundsReal, abs_signFactor_mul neg hnn]
    have hb := h.overflowBound_le_iff.2 hover
    refine ⟨hb, hsign (mul_ne_zero ?_ (lt_of_lt_of_le ?_ hb).ne')⟩
    · cases neg <;> simp
    · rw [cast_overflowBound]
      have : (1 : ℝ) ≤ 2 ^ fpPrec F := one_le_pow₀ one_le_two
      exact mul_pos (by linarith) (zpow_pos two_pos _)
  · rw [hr] at hcan ⊢
    have hval : (fpValue (.fin neg (2 ^ (fpPrec F - 1)) (q + 1)) : ℝ) = signFactor neg * (t * 2 ^ q) := by
      rw [cast_fpValue_fin, ht, zpow_add_one₀ two_ne_zero]; push_cast; rw [two_pow_fpPrec]; ring
    have heven : 2 ^ (fpPrec F - 1) % 2 = 0 := by
      rw [fpPrec_sub_one]; exact Nat.mod_eq_zero_of_dvd (dvd_pow_self 2 hF.ne')
    rw [RoundsReal, abs_signFactor_mul neg hnn, hval]
    exact ⟨hcan, not_le.1 (mt h.overflowBound_le_iff.1 hin), hsign, fun v hv hf => ⟨(hnear v hv hf).1, fun _ _ => heven⟩⟩
  · rw [hr] at hcan ⊢
    rw [RoundsReal, abs_signFactor_mul neg hnn, cast_fpValue_fin]
    exact ⟨hcan, not_le.1 (mt h.overflowBound_le_iff.1 hin), hsign, hnear⟩

end Sys2Proof.Machine
end

section
/-! SUPPORT. `fpRound` rounds correctly, from exact significands and from truncated ones with a sticky bit (R15). -/

namespace Sys2Proof.Machine

/-! ## The significand a truncation stands for -/

/-- The significand `m` rounds to the format as the number `u` does: it is that number, or it is odd, within 1 of it, and
long enough that the format drops two of its places. -/
def StandsFor (F : FpFormat) (m : Nat) (u : ℝ) : Prop :=
  u = m ∨ (fpPrec F + 2 ≤ bitLen m ∧ m % 2 = 1 ∧ (m : ℝ) - 1 < u ∧ u < m + 1)

/-- The two lie on the same side of the number `N`. -/
def SameSide (m : Nat) (u : ℝ) (N : Nat) : Prop := (u < N ↔ m < N) ∧ ((N : ℝ) < u ↔ N < m)

theorem sameSide_self (m N : Nat) : SameSide m m N := ⟨Nat.cast_lt, Nat.cast_lt⟩

/-- An odd significand within 1 of a number lies on its side of every even one. -/
theorem sameSide_of_odd {m N : Nat} {u : ℝ} (hm : m % 2 = 1) (h1 : (m : ℝ) - 1 < u) (h2 : u < m + 1) (hN : N % 2 = 0) :
    SameSide m u N := by
  have hmN : m < N ∨ N < m := by omega
  rcases hmN with h | h
  · have hR : (m : ℝ) + 1 ≤ N := by exact_mod_cast h
    exact ⟨iff_of_true (by linarith) h, iff_of_false (by linarith) (by omega)⟩
  · have hR : (N : ℝ) + 1 ≤ m := by exact_mod_cast h
    exact ⟨iff_of_false (by linarith) (by omega), iff_of_true (by linarith) h⟩

theorem SameSide.le_of_le {m N : Nat} {u : ℝ} (h : SameSide m u N) (hN : N ≤ m) : (N : ℝ) ≤ u :=
  not_lt.1 fun hu => absurd (h.1.1 hu) (by omega)

theorem SameSide.eq_of_eq {m N : Nat} {u : ℝ} (h : SameSide m u N) (hN : m = N) : u = N :=
  le_antisymm (not_lt.1 fun hu => absurd (h.2.1 hu) (by omega)) (h.le_of_le hN.ge)

theorem StandsFor.nonneg {F : FpFormat} {m : Nat} {u : ℝ} (h : StandsFor F m u) : 0 ≤ u := by
  rcases h with rfl | ⟨-, hodd, hlo, -⟩
  · exact Nat.cast_nonneg m
  · have : (1 : ℝ) ≤ m := by exact_mod_cast (by omega : 1 ≤ m)
    linarith

/-! ## The rounding of a significand -/

/-- `m / d` rounded to an integer, ties to even: `fpRound`'s choice between the two neighbours. -/
def roundDiv (m d : Nat) : Nat := if d < 2 * (m % d) ∨ (2 * (m % d) = d ∧ m / d % 2 = 1) then m / d + 1 else m / d

/-- `roundDiv` rounds any number that lies on `m`'s side of every half of the divisor `2 * h`. -/
theorem nearestEven_roundDiv {m h : Nat} {u : ℝ} (hh : 0 < h) (hside : ∀ n, SameSide m u (n * h)) :
    NearestEven (u / (2 * h : Nat)) (roundDiv m (2 * h)) := by
  have hd : (0 : ℝ) < (2 * h : Nat) := by exact_mod_cast (by omega : 0 < 2 * h)
  have hsplit := Nat.div_add_mod m (2 * h)
  have hrem : m % (2 * h) < 2 * h := Nat.mod_lt _ (by omega)
  unfold roundDiv
  generalize m / (2 * h) = t at *
  generalize m % (2 * h) = ρ at *
  -- the three halves around the quotient
  have hlo := hside (2 * t)
  have hmid := hside (2 * t + 1)
  have hhi := hside (2 * t + 2)
  have e0 : 2 * t * h = 2 * h * t := by ring
  have e1 : (2 * t + 1) * h = 2 * h * t + h := by ring
  have e2 : (2 * t + 2) * h = 2 * h * t + 2 * h := by ring
  rw [e0] at hlo
  rw [e1] at hmid
  rw [e2] at hhi
  rcases lt_trichotomy (2 * h) (2 * ρ) with hup | htie | hdown
  · rw [if_pos (.inl hup)]
    have h1 := hmid.2.2 (by omega)
    have h2 := hhi.1.2 (by omega)
    push_cast at h1 h2
    refine nearestEven_of_lt ?_ ?_
    · rw [lt_div_iff₀ hd]; push_cast; linarith
    · rw [div_lt_iff₀ hd]; push_cast; linarith
  · have h1 := hmid.eq_of_eq (by omega)
    have hy : u / (2 * h : Nat) = t + 1 / 2 := by
      rw [div_eq_iff hd.ne', h1]; push_cast; ring
    rw [hy]
    by_cases hodd : t % 2 = 1
    · rw [if_pos (.inr ⟨htie.symm, hodd⟩)]
      exact ⟨by push_cast; linarith, by push_cast; linarith, fun _ => by omega⟩
    · rw [if_neg (by omega)]
      exact ⟨by linarith, le_rfl, fun _ => by omega⟩
  · rw [if_neg (by omega)]
    have h1 := hlo.le_of_le (by omega)
    have h2 := hmid.1.2 (by omega)
    push_cast at h1 h2
    refine nearestEven_of_lt ?_ ?_
    · rw [lt_div_iff₀ hd]; push_cast; linarith
    · rw [div_lt_iff₀ hd]; push_cast; linarith

/-! ## The last place -/

theorem fpQmin_le_fpLastPlace (F : FpFormat) (m : Nat) (e : Int) : fpQmin F ≤ fpLastPlace F m e := le_max_left _ _

theorem le_fpLastPlace (F : FpFormat) (m : Nat) (e : Int) : e + bitLen m - fpPrec F ≤ fpLastPlace F m e :=
  le_max_right _ _

theorem fpLastPlace_cases (F : FpFormat) (m : Nat) (e : Int) :
    fpLastPlace F m e = fpQmin F ∨ fpLastPlace F m e = e + bitLen m - fpPrec F := by
  unfold fpLastPlace; omega

/-- The significand at its last place is below the format's bound. -/
theorem sig_lt_at_lastPlace (F : FpFormat) (m : Nat) (e : Int) :
    (m : ℝ) * 2 ^ (e - fpLastPlace F m e) < 2 ^ fpPrec F := by
  have hm : (m : ℝ) < 2 ^ bitLen m := by exact_mod_cast lt_two_pow_bitLen m
  have hq := le_fpLastPlace F m e
  calc (m : ℝ) * 2 ^ (e - fpLastPlace F m e)
      < 2 ^ bitLen m * 2 ^ (e - fpLastPlace F m e) := mul_lt_mul_of_pos_right hm (zpow_pos two_pos _)
    _ = (2 : ℝ) ^ ((bitLen m : Int) + (e - fpLastPlace F m e)) := by rw [zpow_add₀ two_ne_zero, zpow_natCast]
    _ ≤ (2 : ℝ) ^ (fpPrec F : Int) := zpow_le_zpow_right₀ one_le_two (by omega)
    _ = 2 ^ fpPrec F := zpow_natCast _ _

/-- The significand at its last place is full, or the last place is the least. -/
theorem sig_full_at_lastPlace (F : FpFormat) {m : Nat} (e : Int) (h0 : m ≠ 0) :
    (2 : ℝ) ^ (fpPrec F - 1) ≤ m * 2 ^ (e - fpLastPlace F m e) ∨ fpLastPlace F m e = fpQmin F := by
  refine (fpLastPlace_cases F m e).symm.imp_left fun hq => ?_
  have hm : (2 : ℝ) ^ (bitLen m - 1) ≤ m := by exact_mod_cast two_pow_bitLen_le h0
  have hL := bitLen_pos h0
  have hp : 0 < fpPrec F := Nat.succ_pos _
  calc (2 : ℝ) ^ (fpPrec F - 1) = (2 : ℝ) ^ (((bitLen m - 1 : Nat) : Int) + (e - fpLastPlace F m e)) := by
        rw [hq, ← zpow_natCast]; congr 1; omega
    _ = 2 ^ (bitLen m - 1) * 2 ^ (e - fpLastPlace F m e) := by rw [zpow_add₀ two_ne_zero, zpow_natCast]
    _ ≤ m * 2 ^ (e - fpLastPlace F m e) := mul_le_mul_of_nonneg_right hm (zpow_pos two_pos _).le

/-! ## Rounding -/

theorem fpRound_zero (F : FpFormat) (neg : Bool) (e : Int) : fpRound F neg 0 e = .fin neg 0 (fpQmin F) := rfl

theorem fpRound_of_le {F : FpFormat} {m : Nat} {e : Int} (neg : Bool) (h0 : m ≠ 0) (h : fpLastPlace F m e ≤ e) :
    fpRound F neg m e = fpFinish F neg (m * 2 ^ (e - fpLastPlace F m e).toNat) (fpLastPlace F m e) := by
  simp [fpRound, h0, h]

theorem fpRound_of_lt {F : FpFormat} {m : Nat} {e : Int} (neg : Bool) (h0 : m ≠ 0) (h : e < fpLastPlace F m e) :
    fpRound F neg m e = fpFinish F neg (roundDiv m (2 ^ (fpLastPlace F m e - e).toNat)) (fpLastPlace F m e) := by
  rw [fpRound, if_neg h0, roundDiv]
  dsimp only
  rw [if_neg (not_le.2 h), apply_ite (fun t => fpFinish F neg t (fpLastPlace F m e))]

/-- Numbers on one side of every half of the divisor have quotients on one side of every integer. -/
theorem sameSide_scaled {m h : Nat} {u : ℝ} (hh : 0 < h) (hside : ∀ n, SameSide m u (n * h)) :
    (∀ N : Nat, (m : ℝ) / (2 * h : Nat) < N → u / (2 * h : Nat) < N) ∧
    (∀ N : Nat, (N : ℝ) ≤ m / (2 * h : Nat) → (N : ℝ) ≤ u / (2 * h : Nat)) := by
  have hd : (0 : ℝ) < (2 * h : Nat) := by exact_mod_cast (by omega : 0 < 2 * h)
  have hN : ∀ N : Nat, SameSide m u (N * (2 * h)) := fun N => by
    have := hside (N * 2)
    rwa [mul_assoc] at this
  refine ⟨fun N hlt => ?_, fun N hle => ?_⟩
  · rw [div_lt_iff₀ hd] at hlt ⊢
    exact_mod_cast (hN N).1.2 (by exact_mod_cast hlt)
  · rw [le_div_iff₀ hd] at hle ⊢
    exact_mod_cast (hN N).le_of_le (by exact_mod_cast hle)

/-- A significand that stands for `u` and is not zero is rounded to a rounded significand of `u` at its last place. -/
theorem fpRound_eq_fpFinish {F : FpFormat} {m : Nat} {u : ℝ} (neg : Bool) (e : Int) (h0 : m ≠ 0)
    (hu : StandsFor F m u) :
    ∃ t, fpRound F neg m e = fpFinish F neg t (fpLastPlace F m e) ∧
      RoundedSig F (u * 2 ^ (e - fpLastPlace F m e)) t (fpLastPlace F m e) := by
  have hnn : 0 ≤ u * (2 : ℝ) ^ (e - fpLastPlace F m e) := mul_nonneg hu.nonneg (zpow_pos two_pos _).le
  have hlt := sig_lt_at_lastPlace F m e
  have hfull := sig_full_at_lastPlace F e h0
  have hmin := fpQmin_le_fpLastPlace F m e
  have hplace := le_fpLastPlace F m e
  rcases le_or_gt (fpLastPlace F m e) e with hle | hgt
  · -- no place is dropped: the significand is exact
    have hum : u = m := by
      rcases hu with h | ⟨hlen, -⟩
      · exact h
      · omega
    rw [hum] at hnn ⊢
    have hval : (m : ℝ) * 2 ^ (e - fpLastPlace F m e) = (m * 2 ^ (e - fpLastPlace F m e).toNat : Nat) := by
      have hexp : ((e - fpLastPlace F m e).toNat : Int) = e - fpLastPlace F m e := Int.toNat_of_nonneg (by omega)
      push_cast
      rw [← zpow_natCast, hexp]
    exact ⟨_, fpRound_of_le neg h0 hle, hnn, hval ▸ nearestEven_natCast _, hlt, hfull, hmin⟩
  · have hround := fpRound_of_lt neg h0 hgt
    generalize fpLastPlace F m e = q at *
    obtain ⟨s, hs⟩ : ∃ s : Nat, q - e = s + 1 := ⟨(q - e - 1).toNat, by omega⟩
    have hside : ∀ n, SameSide m u (n * 2 ^ s) := by
      intro n
      rcases hu with rfl | ⟨hlen, hodd, h1, h2⟩
      · exact sameSide_self m _
      · exact sameSide_of_odd hodd h1 h2
          (Nat.mod_eq_zero_of_dvd (Dvd.dvd.mul_left (dvd_pow_self 2 (by omega)) n))
    rw [show 2 ^ (q - e).toNat = 2 * 2 ^ s by rw [hs, ← pow_succ']; rfl] at hround
    have hscale : (2 : ℝ) ^ (e - q) = ((2 * 2 ^ s : Nat) : ℝ)⁻¹ := by
      rw [← neg_sub, zpow_neg, inv_inj, hs, ← pow_succ']
      push_cast
      exact zpow_natCast 2 (s + 1)
    simp only [hscale, ← div_eq_mul_inv] at hnn hlt hfull ⊢
    obtain ⟨hltu, hfullu⟩ := sameSide_scaled (Nat.two_pow_pos s) hside
    refine ⟨_, hround, hnn, nearestEven_roundDiv (Nat.two_pow_pos s) hside, ?_, ?_, hmin⟩
    · exact_mod_cast hltu (2 ^ fpPrec F) (by exact_mod_cast hlt)
    · exact hfull.imp_left fun h => by exact_mod_cast hfullu (2 ^ (fpPrec F - 1)) (by exact_mod_cast h)

/-- `fpRound` rounds correctly the number its significand stands for. -/
theorem fpRound_rounds {F : FpFormat} (hF : 0 < F.fracBits) {m : Nat} {u : ℝ} (neg : Bool) (e : Int)
    (hu : StandsFor F m u) : RoundsReal F (signFactor neg * (u * 2 ^ e)) (fpRound F neg m e) := by
  by_cases h0 : m = 0
  · subst h0
    have hu0 : u = 0 := by
      rcases hu with h | ⟨-, hodd, -, -⟩
      · simpa using h
      · omega
    have hsig : RoundedSig F 0 0 (fpQmin F) :=
      ⟨le_rfl, by simpa using nearestEven_natCast 0, by positivity, .inr rfl, le_rfl⟩
    have hz : fpRound F neg 0 e = fpFinish F neg 0 (fpQmin F) := by
      have hp : 0 ≠ 2 ^ fpPrec F := (Nat.two_pow_pos _).ne
      rw [fpRound_zero, fpFinish, if_neg hp, if_neg (not_lt.2 (fpQmin_le_fpQmax F))]
    rw [hz, hu0, zero_mul]
    simpa using hsig.fpFinish_rounds hF neg
  · obtain ⟨t, hr, hsig⟩ := fpRound_eq_fpFinish neg e h0 hu
    have hscale : u * (2 : ℝ) ^ e = u * 2 ^ (e - fpLastPlace F m e) * 2 ^ fpLastPlace F m e := by
      rw [mul_assoc, ← zpow_add₀ two_ne_zero, sub_add_cancel]
    rw [hr, hscale]
    exact hsig.fpFinish_rounds hF neg

/-- `fpRound` rounds the number it is given correctly. -/
theorem fpRound_roundsTo {F : FpFormat} (hF : 0 < F.fracBits) (neg : Bool) (m : Nat) (e : Int) :
    RoundsTo F (fpValue (.fin neg m e)) (fpRound F neg m e) := by
  rw [← roundsReal_ratCast, cast_fpValue_fin]
  exact fpRound_rounds hF neg e (.inl rfl)

/-- A truncated result with its sticky bit stands for the exact one, twice as large, if it is exact or long enough. -/
theorem standsFor_stickyBit {F : FpFormat} {t : Nat} {u : ℝ} {inexact : Bool} (hexact : inexact = false → u = t)
    (hinexact : inexact = true → 2 ^ (fpPrec F + 1) ≤ t ∧ (t : ℝ) < u ∧ u < t + 1) :
    StandsFor F (stickyBit t inexact) (2 * u) := by
  cases inexact with
  | false => exact .inl (by rw [hexact rfl]; simp [stickyBit])
  | true =>
    obtain ⟨hlen, h1, h2⟩ := hinexact rfl
    refine .inr ⟨?_, by simp [stickyBit], ?_, ?_⟩
    · have hlt : 2 ^ (fpPrec F + 1) < 2 ^ bitLen (stickyBit t true) :=
        lt_of_le_of_lt (by simp only [stickyBit]; omega) (lt_two_pow_bitLen _)
      exact (Nat.pow_lt_pow_iff_right (by norm_num)).1 hlt
    · simp only [stickyBit, if_true]; push_cast; linarith
    · simp only [stickyBit, if_true]; push_cast; linarith

end Sys2Proof.Machine
end

section
/-! SUPPORT. The operations on finite values and the settled statements about them (00_scope.md R9, R10, R14). -/

namespace Sys2Proof.Machine

theorem formatOf_fracBits_pos (fmt : ArithFormat) : 0 < (formatOf fmt).fracBits := by cases fmt <;> decide

/-! ## Addition and multiplication: the exact result, rounded -/

/-- The sum of two finite values is an exact integer at the lower exponent, rounded. -/
theorem fpAdd_fin_roundsTo {F : FpFormat} (hF : 0 < F.fracBits) (na nb : Bool) (ma mb : Nat) (ea eb : Int) :
    RoundsTo F (fpValue (.fin na ma ea) + fpValue (.fin nb mb eb)) (fpAdd F (.fin na ma ea) (.fin nb mb eb)) := by
  rw [← signedAt_mul na ma (min_le_left ea eb), ← signedAt_mul nb mb (min_le_right ea eb), ← add_mul, ← Int.cast_add]
  simp only [fpAdd]
  generalize signedAt na ma ea (min ea eb) + signedAt nb mb eb (min ea eb) = s
  split
  · next h0 =>
    have h := fpRound_roundsTo hF (na && nb) 0 0
    rw [fpValue_fin_zero, fpRound_zero] at h
    rw [h0, Int.cast_zero, zero_mul]
    exact h
  · rw [← fpValue_fin_natAbs]
    exact fpRound_roundsTo hF _ _ _

/-- Settles O41: both operands are finite, so the sum is one rounding of an exact integer. -/
theorem additionIsCorrectlyRounded : Obligations.AdditionIsCorrectlyRounded := by
  intro fmt a b _ _ ha hb
  obtain ⟨na, ma, ea, rfl⟩ := eq_fin_of_fpIsFinite ha
  obtain ⟨nb, mb, eb, rfl⟩ := eq_fin_of_fpIsFinite hb
  exact fpAdd_fin_roundsTo (formatOf_fracBits_pos fmt) na nb ma mb ea eb

theorem fpValue_mul (na nb : Bool) (ma mb : Nat) (ea eb : Int) :
    fpValue (.fin na ma ea) * fpValue (.fin nb mb eb) = fpValue (.fin (na ^^ nb) (ma * mb) (ea + eb)) := by
  rw [fpValue_fin, fpValue_fin, fpValue_fin, signFactor_xor, zpow_add₀ two_ne_zero]
  push_cast
  ring

/-- Settles O42: the product is one rounding of the product of the significands. -/
theorem multiplicationIsCorrectlyRounded : Obligations.MultiplicationIsCorrectlyRounded := by
  intro fmt a b _ _ ha hb
  obtain ⟨na, ma, ea, rfl⟩ := eq_fin_of_fpIsFinite ha
  obtain ⟨nb, mb, eb, rfl⟩ := eq_fin_of_fpIsFinite hb
  rw [fpValue_mul]
  exact fpRound_roundsTo (formatOf_fracBits_pos fmt) _ _ _

/-! ## Division: a truncated quotient with a sticky bit -/

/-- A quotient lies between its truncation and the next integer. -/
theorem natDiv_bracket {n d : Nat} (hd : 0 < d) :
    (n % d = 0 → (n : ℝ) / d = (n / d : Nat)) ∧
    (n % d ≠ 0 → ((n / d : Nat) : ℝ) < n / d ∧ (n : ℝ) / d < (n / d : Nat) + 1) := by
  have hdR : (0 : ℝ) < d := by exact_mod_cast hd
  have hsplit : d * (n / d) + n % d = n := Nat.div_add_mod n d
  have hrem := Nat.mod_lt n hd
  generalize n / d = t at *
  refine ⟨fun h0 => ?_, fun h0 => ?_⟩
  · rw [div_eq_iff hdR.ne']
    exact_mod_cast (by rw [mul_comm]; omega : n = t * d)
  · rw [lt_div_iff₀ hdR, div_lt_iff₀ hdR]
    constructor
    · exact_mod_cast (by rw [mul_comm]; omega : t * d < n)
    · exact_mod_cast (by rw [add_mul, one_mul, mul_comm]; omega : n < (t + 1) * d)

/-- The truncated quotient of `fpRoundQuotient`, with its sticky bit, stands for the exact quotient. -/
theorem standsFor_quotient (F : FpFormat) (num : Nat) {den : Nat} (hden : 0 < den) :
    let n := num * 2 ^ (fpPrec F + 2 + bitLen den)
    StandsFor F (stickyBit (n / den) (n % den != 0)) (2 * ((n : ℝ) / den)) := by
  intro n
  obtain ⟨hexact, hbetween⟩ := natDiv_bracket (n := n) hden
  refine standsFor_stickyBit (fun h => hexact (by simpa using h)) fun h => ?_
  have hne : n % den ≠ 0 := by simpa using h
  have hnum : 1 ≤ num := Nat.one_le_iff_ne_zero.2 fun h0 => hne (by simp [n, h0])
  refine ⟨(Nat.le_div_iff_mul_le hden).2 ?_, hbetween hne⟩
  calc 2 ^ (fpPrec F + 1) * den ≤ 2 ^ (fpPrec F + 2) * 2 ^ bitLen den :=
        Nat.mul_le_mul (Nat.pow_le_pow_right (by norm_num) (by omega)) (lt_two_pow_bitLen den).le
    _ = 1 * 2 ^ (fpPrec F + 2 + bitLen den) := by rw [← pow_add, one_mul]
    _ ≤ n := Nat.mul_le_mul_right _ hnum

/-- A quotient is rounded correctly, once. -/
theorem fpRoundQuotient_roundsTo {F : FpFormat} (hF : 0 < F.fracBits) (neg : Bool) (num : Nat) {den : Nat}
    (hden : 0 < den) (e : Int) :
    RoundsTo F (signFactor neg * (num / den) * 2 ^ e) (fpRoundQuotient F neg num den e) := by
  rw [← roundsReal_ratCast]
  simp only [fpRoundQuotient]
  convert fpRound_rounds hF neg _ (standsFor_quotient F num hden) using 1
  generalize fpPrec F + 2 + bitLen den = k
  rw [show e - (k : Int) - 1 = e + -((k : Int) + 1) by ring, zpow_add₀ two_ne_zero, zpow_neg,
    zpow_add_one₀ two_ne_zero, zpow_natCast]
  push_cast
  field_simp

/-- Settles O43: the divisor is not zero, so the quotient is one rounding of the exact one. -/
theorem divisionIsCorrectlyRounded : Obligations.DivisionIsCorrectlyRounded := by
  intro fmt a b _ _ ha hb hb0
  obtain ⟨na, ma, ea, rfl⟩ := eq_fin_of_fpIsFinite ha
  obtain ⟨nb, mb, eb, rfl⟩ := eq_fin_of_fpIsFinite hb
  have hmb : mb ≠ 0 := fun h => hb0 (by rw [h, fpValue_fin_zero])
  have hval : fpValue (.fin na ma ea) / fpValue (.fin nb mb eb) =
      signFactor (na ^^ nb) * (ma / mb) * 2 ^ (ea - eb) := by
    have hinv : (signFactor nb)⁻¹ = signFactor nb := by cases nb <;> norm_num
    rw [fpValue_fin, fpValue_fin, signFactor_xor, zpow_sub₀ two_ne_zero]
    simp only [div_eq_mul_inv, mul_inv, hinv]
    ring
  rw [hval, fpDiv, if_neg hmb]
  exact fpRoundQuotient_roundsTo (formatOf_fracBits_pos fmt) _ ma (Nat.pos_of_ne_zero hmb) _

end Sys2Proof.Machine
end

section
/-! SUPPORT. Representable numbers, conversions and the square root, with the settled statements about them (R9, R10). -/

namespace Sys2Proof.Machine

/-! ## Representable numbers -/

theorem overflowBound_pos (F : FpFormat) : 0 < overflowBound F := by
  have : (1 : ℚ) ≤ 2 ^ fpPrec F := one_le_pow₀ one_le_two
  exact mul_pos (by linarith) (zpow_pos two_pos _)

/-- A representable value is below the overflow bound. -/
theorem abs_fpValue_lt_overflowBound {F : FpFormat} {v : Fp} (hv : fpCanonical F v = true)
    (hf : fpIsFinite v = true) : |fpValue v| < overflowBound F := by
  obtain ⟨neg, m, e, rfl⟩ := eq_fin_of_fpIsFinite hf
  simp only [fpCanonical, decide_eq_true_eq] at hv
  obtain ⟨hm, -, he, -⟩ := hv
  have hmQ : (m : ℚ) + 1 ≤ 2 ^ fpPrec F := by exact_mod_cast hm
  have habs : |fpValue (.fin neg m e)| = m * 2 ^ e := by
    have hnn : (0 : ℚ) ≤ m * 2 ^ e := by positivity
    cases neg with
    | false => rw [fpValue_fin_false, abs_of_nonneg hnn]
    | true => rw [fpValue_fin_true, abs_neg, abs_of_nonneg hnn]
  calc |fpValue (.fin neg m e)| = m * 2 ^ e := habs
    _ ≤ m * 2 ^ fpQmax F := mul_le_mul_of_nonneg_left (zpow_le_zpow_right₀ one_le_two he) (Nat.cast_nonneg m)
    _ < overflowBound F := mul_lt_mul_of_pos_right (by linarith) (zpow_pos two_pos _)

/-- A representable number rounds to itself. -/
theorem RoundsTo.exact {F : FpFormat} {v r : Fp} (hv : fpCanonical F v = true) (hf : fpIsFinite v = true)
    (h : RoundsTo F (fpValue v) r) : fpIsFinite r = true ∧ fpValue r = fpValue v := by
  cases r with
  | nan => exact h.elim
  | inf neg => exact absurd h.1 (not_le.2 (abs_fpValue_lt_overflowBound hv hf))
  | fin neg m e =>
    obtain ⟨-, -, -, hnear⟩ := h
    have hzero := (hnear v hv hf).1
    rw [sub_self, abs_zero] at hzero
    exact ⟨rfl, (sub_eq_zero.1 (abs_nonpos_iff.1 hzero)).symm⟩

/-- A short significand at an exponent of the format has a canonical form: its leading zeros are shifted out as far as the
least exponent allows. -/
theorem exists_canonical {F : FpFormat} (neg : Bool) {m : Nat} {e : Int} (hm : m < 2 ^ fpPrec F)
    (hmin : fpQmin F ≤ e) (hmax : e ≤ fpQmax F) :
    ∃ v, fpCanonical F v = true ∧ fpIsFinite v = true ∧ fpValue v = fpValue (.fin neg m e) := by
  by_cases h0 : m = 0
  · subst h0
    refine ⟨.fin neg 0 (fpQmin F), ?_, rfl, by simp⟩
    simp only [fpCanonical, decide_eq_true_eq]
    exact ⟨hm, le_rfl, fpQmin_le_fpQmax F, .inr trivial⟩
  · have hlt := lt_two_pow_bitLen m
    have hge := two_pow_bitLen_le h0
    have hL := bitLen_pos h0
    have hlen : bitLen m ≤ fpPrec F := by
      have := (Nat.pow_lt_pow_iff_right (a := 2) (by norm_num)).1 (lt_of_le_of_lt hge hm)
      omega
    -- the shift
    obtain ⟨k, hk⟩ : ∃ k : Nat, k = min (fpPrec F - bitLen m) (e - fpQmin F).toNat := ⟨_, rfl⟩
    refine ⟨.fin neg (m * 2 ^ k) (e - k), ?_, rfl, ?_⟩
    · simp only [fpCanonical, decide_eq_true_eq]
      refine ⟨?_, by omega, by omega, ?_⟩
      · calc m * 2 ^ k < 2 ^ bitLen m * 2 ^ k := Nat.mul_lt_mul_of_pos_right hlt (Nat.two_pow_pos k)
          _ = 2 ^ (bitLen m + k) := (pow_add _ _ _).symm
          _ ≤ 2 ^ fpPrec F := Nat.pow_le_pow_right (by norm_num) (by omega)
      · rcases le_total (fpPrec F - bitLen m) (e - fpQmin F).toNat with hle | hle
        · left
          calc 2 ^ (fpPrec F - 1) = 2 ^ (bitLen m - 1 + k) := by congr 1; omega
            _ = 2 ^ (bitLen m - 1) * 2 ^ k := pow_add _ _ _
            _ ≤ m * 2 ^ k := Nat.mul_le_mul_right _ hge
        · right; omega
    · rw [fpValue_fin, fpValue_fin, zpow_sub₀ two_ne_zero, zpow_natCast]
      push_cast
      field_simp

/-- A number with a short significand at an exponent of the format is rounded to itself. -/
theorem fpRound_exact {F : FpFormat} (hF : 0 < F.fracBits) (neg : Bool) {m : Nat} {e : Int} (hm : m < 2 ^ fpPrec F)
    (hmin : fpQmin F ≤ e) (hmax : e ≤ fpQmax F) :
    fpIsFinite (fpRound F neg m e) = true ∧ fpValue (fpRound F neg m e) = fpValue (.fin neg m e) := by
  obtain ⟨v, hv, hf, hval⟩ := exists_canonical neg hm hmin hmax
  have h := fpRound_roundsTo hF neg m e
  rw [← hval] at h ⊢
  exact h.exact hv hf

/-! ## Conversions -/

/-- The significands and exponents of binary32 are among those of binary64. -/
theorem binary32_within_binary64 :
    2 ^ fpPrec binary32 ≤ 2 ^ fpPrec binary64 ∧ fpQmin binary64 ≤ fpQmin binary32 ∧
      fpQmax binary32 ≤ fpQmax binary64 := by decide

/-- Settles O45: a conversion is one rounding, and the numbers of binary32 are representable in binary64. -/
theorem conversionsRoundOrAreExact : Obligations.ConversionsRoundOrAreExact := by
  refine ⟨fun a _ ha => ?_, fun a hcan ha => ?_⟩
  · obtain ⟨neg, m, e, rfl⟩ := eq_fin_of_fpIsFinite ha
    exact fpRound_roundsTo (by decide) neg m e
  · obtain ⟨neg, m, e, rfl⟩ := eq_fin_of_fpIsFinite ha
    simp only [fpCanonical, decide_eq_true_eq] at hcan
    obtain ⟨hm, hmin, hmax, -⟩ := hcan
    obtain ⟨hprec, hqmin, hqmax⟩ := binary32_within_binary64
    exact fpRound_exact (by decide) neg (lt_of_lt_of_le hm hprec) (hqmin.trans hmin) (hmax.trans hqmax)

/-! ## The square root -/

/-- The truncated root of `fpSqrt`, with its sticky bit, stands for the exact root. -/
theorem standsFor_sqrt (F : FpFormat) {n : Nat} (hn : 2 ^ (2 * (fpPrec F + 2)) ≤ n) :
    StandsFor F (stickyBit (isqrt n) (isqrt n * isqrt n != n)) (2 * √(n : ℝ)) := by
  obtain ⟨hlo, hhi⟩ := isqrt_spec n
  have hlen : 2 ^ (fpPrec F + 1) ≤ isqrt n := by
    by_contra hlt
    have hr : isqrt n + 1 ≤ 2 ^ (fpPrec F + 2) := by
      rw [pow_succ]; omega
    have hsq := Nat.mul_le_mul hr hr
    rw [← pow_add, ← two_mul] at hsq
    omega
  generalize isqrt n = r at *
  refine standsFor_stickyBit (fun h => ?_) fun h => ⟨hlen, ?_, ?_⟩
  · have hrn : r * r = n := by simpa using h
    rw [← hrn, Nat.cast_mul, Real.sqrt_mul_self (Nat.cast_nonneg r)]
  · have hrn : r * r < n := lt_of_le_of_ne hlo (by simpa using h)
    rw [Real.lt_sqrt (Nat.cast_nonneg r), sq]
    exact_mod_cast hrn
  · rw [Real.sqrt_lt' (by positivity), sq]
    exact_mod_cast hhi

/-- The root of a positive value is rounded correctly. -/
theorem fpSqrt_rounds {F : FpFormat} (hF : 0 < F.fracBits) {m : Nat} (hm : m ≠ 0) (e : Int) :
    RoundsReal F √((fpValue (.fin false m e) : ℚ) : ℝ) (fpSqrt F (.fin false m e)) := by
  simp only [fpSqrt, if_neg hm, Bool.false_eq_true, if_false]
  obtain ⟨k, hk⟩ : ∃ k : Nat, k = 2 * (fpPrec F + 2) + (e % 2).toNat := ⟨_, rfl⟩
  rw [← hk]
  have hn : 2 ^ (2 * (fpPrec F + 2)) ≤ m * 2 ^ k :=
    le_trans (Nat.pow_le_pow_right (by norm_num) (by omega)) (Nat.le_mul_of_pos_left _ (Nat.pos_of_ne_zero hm))
  -- the exponent left after the shift is even
  obtain ⟨j, hj⟩ : ∃ j : Int, e - k = 2 * j := ⟨(e - k) / 2, by omega⟩
  have hhalf : (e - k) / 2 - 1 = j - 1 := by omega
  have hroot : √((fpValue (.fin false m e) : ℚ) : ℝ) = 2 * √((m * 2 ^ k : Nat) : ℝ) * 2 ^ (j - 1) := by
    have he : (2 : ℝ) ^ e = 2 ^ k * (2 ^ j) ^ 2 := by
      rw [← zpow_natCast, ← zpow_natCast, ← zpow_mul, ← zpow_add₀ two_ne_zero]
      congr 1; push_cast; omega
    rw [cast_fpValue_fin, he, zpow_sub_one₀ two_ne_zero, signFactor_false, Rat.cast_one, one_mul, ← mul_assoc,
      Real.sqrt_mul (by positivity), Real.sqrt_sq (by positivity)]
    push_cast
    ring
  have h := fpRound_rounds hF false (j - 1) (standsFor_sqrt F hn)
  rw [signFactor_false, Rat.cast_one, one_mul, ← hroot] at h
  rw [hhalf]
  exact h

/-- Of two numbers, `s` is nearer to the greater one from their midpoint on. -/
theorem abs_sub_le_abs_sub_iff_of_lt {s w r : ℝ} (h : w < r) : |s - r| ≤ |s - w| ↔ (w + r) / 2 ≤ s := by
  rw [← sq_le_sq]
  constructor <;> intro h' <;> nlinarith

/-- Of two numbers, `s` is nearer to the lower one up to their midpoint. -/
theorem abs_sub_le_abs_sub_iff_of_gt {s w r : ℝ} (h : r < w) : |s - r| ≤ |s - w| ↔ s ≤ (w + r) / 2 := by
  rw [← sq_le_sq]
  constructor <;> intro h' <;> nlinarith

/-- The least exponent's unit is representable. -/
theorem fpCanonical_unit {F : FpFormat} : fpCanonical F (.fin false 1 (fpQmin F)) = true := by
  simp only [fpCanonical, decide_eq_true_eq]
  exact ⟨Nat.one_lt_two_pow (Nat.succ_ne_zero _), le_rfl, fpQmin_le_fpQmax F, .inr trivial⟩

theorem two_zpow_fpQmin_le_one (F : FpFormat) : (2 : ℚ) ^ fpQmin F ≤ 1 :=
  zpow_le_one_of_nonpos₀ one_le_two (by unfold fpQmin; omega)

theorem one_le_overflowBound (F : FpFormat) : 1 ≤ overflowBound F := by
  have h1 : (2 : ℚ) ≤ 2 ^ fpPrec F := le_self_pow₀ one_le_two (Nat.succ_ne_zero _)
  have h2 : (1 : ℚ) ≤ 2 ^ fpQmax F := one_le_zpow₀ one_le_two (by unfold fpQmax; omega)
  unfold overflowBound
  nlinarith

/-- The rounding of the real root is the rounding that the statement describes by squares of midpoints, for a number whose
root is within the format's range. -/
theorem sqrtRoundsTo_of_roundsReal {F : FpFormat} {x : ℚ} {r : Fp} (hx : (2 : ℚ) ^ fpQmin F ≤ x)
    (hover : x < overflowBound F) (h : RoundsReal F √(x : ℝ) r) : SqrtRoundsTo F x r := by
  have hunit : (0 : ℚ) < 2 ^ fpQmin F := zpow_pos two_pos _
  have hx0 : (0 : ℝ) < x := by exact_mod_cast lt_of_lt_of_le hunit hx
  have hs0 : 0 < √(x : ℝ) := Real.sqrt_pos.2 hx0
  cases r with
  | nan => exact h
  | inf neg =>
    refine absurd h.1 (not_le.2 ?_)
    rw [abs_of_pos hs0, Real.sqrt_lt' (by exact_mod_cast overflowBound_pos F)]
    exact_mod_cast lt_of_lt_of_le hover (le_self_pow₀ (one_le_overflowBound F) two_ne_zero)
  | fin neg m e =>
    obtain ⟨hcan, -, hsign, hnear⟩ := h
    have hneg : neg = false := by
      rw [← Bool.not_eq_true, hsign hs0.ne']
      exact not_lt.2 hs0.le
    have hm : 0 < m := by
      -- the least unit is nearer to the root than zero
      rw [Nat.pos_iff_ne_zero]
      rintro rfl
      have hle := (hnear _ fpCanonical_unit rfl).1
      have hroot : ((2 ^ fpQmin F : ℚ) : ℝ) ≤ √(x : ℝ) := by
        refine Real.le_sqrt_of_sq_le ?_
        exact_mod_cast le_trans (pow_le_of_le_one hunit.le (two_zpow_fpQmin_le_one F) two_ne_zero) hx
      have hpos : (0 : ℝ) < ((2 ^ fpQmin F : ℚ) : ℝ) := by exact_mod_cast hunit
      rw [fpValue_fin_zero, fpValue_fin_false, Nat.cast_one, one_mul, Rat.cast_zero, sub_zero, abs_of_pos hs0,
        abs_of_nonneg (sub_nonneg.2 hroot)] at hle
      linarith
    have hr0 : 0 ≤ fpValue (.fin neg m e) := by rw [hneg, fpValue_fin_false]; positivity
    refine ⟨hcan, hneg, hm, fun v hv hf hv0 => ?_⟩
    obtain ⟨hle, heven⟩ := hnear v hv hf
    generalize fpValue (.fin neg m e) = ρ at *
    generalize fpValue v = w at *
    have hmid : (0 : ℝ) ≤ (w + ρ) / 2 := by exact_mod_cast div_nonneg (add_nonneg hv0 hr0) two_pos.le
    refine ⟨fun hlt => ?_, fun hgt => ?_, fun heq hne => ?_⟩
    · have hmids := (abs_sub_le_abs_sub_iff_of_lt (by exact_mod_cast hlt)).1 hle
      rw [Real.le_sqrt hmid hx0.le] at hmids
      exact_mod_cast hmids
    · have hmids := (abs_sub_le_abs_sub_iff_of_gt (by exact_mod_cast hgt)).1 hle
      rw [Real.sqrt_le_left hmid] at hmids
      exact_mod_cast hmids
    · have hs : √(x : ℝ) = (w + ρ) / 2 := by
        rw [Real.sqrt_eq_iff_mul_self_eq hx0.le hmid, ← sq]
        exact_mod_cast heq
      refine heven ?_ (by exact_mod_cast hne)
      rw [hs, show ((w : ℝ) + ρ) / 2 - ρ = -(((w : ℝ) + ρ) / 2 - w) by ring, abs_neg]

/-- Settles O44: the operation rounds the real root, and no root of a representable number is out of range. -/
theorem squareRootIsCorrectlyRounded : Obligations.SquareRootIsCorrectlyRounded := by
  rintro fmt a hcan ⟨hfin, hpos⟩
  obtain ⟨neg, m, e, rfl⟩ := eq_fin_of_fpIsFinite hfin
  have hover := abs_fpValue_lt_overflowBound hcan hfin
  rw [abs_of_pos hpos] at hover
  have hm : m ≠ 0 := fun h0 => by simp [h0] at hpos
  have hneg : neg = false := by
    cases neg with
    | false => rfl
    | true =>
      rw [fpValue_fin_true] at hpos
      have : (0 : ℚ) ≤ m * 2 ^ e := by positivity
      linarith
  subst hneg
  refine sqrtRoundsTo_of_roundsReal ?_ hover (fpSqrt_rounds (formatOf_fracBits_pos fmt) hm e)
  simp only [fpCanonical, decide_eq_true_eq] at hcan
  obtain ⟨-, hmin, -, -⟩ := hcan
  have hmQ : (1 : ℚ) ≤ m := by exact_mod_cast Nat.one_le_iff_ne_zero.2 hm
  calc (2 : ℚ) ^ fpQmin (formatOf fmt) ≤ 2 ^ e := zpow_le_zpow_right₀ one_le_two hmin
    _ ≤ m * 2 ^ e := le_mul_of_one_le_left (zpow_pos two_pos e).le hmQ
    _ = fpValue (.fin false m e) := (fpValue_fin_false m e).symm

end Sys2Proof.Machine
end

section
/-! SUPPORT. Patterns and canonical values, and the settled statements about patterns, integers, the comparison and `sat_u16`
(00_scope.md R7, R12, R13, R14). -/

namespace Sys2Proof.Machine

/-! ## The fields of a binary32 pattern (00_scope.md R7) -/

/-- The fraction of a pattern. -/
def fracField (b : F32) : Nat := b.toNat % 2 ^ 23

/-- The biased exponent of a pattern. -/
def expField (b : F32) : Nat := b.toNat / 2 ^ 23 % 2 ^ 8

/-- The sign of a pattern. -/
def signField (b : F32) : Bool := b.toNat / 2 ^ 31 % 2 == 1

theorem fracField_lt (b : F32) : fracField b < 2 ^ 23 := Nat.mod_lt _ (by norm_num)

theorem expField_lt (b : F32) : expField b < 2 ^ 8 := Nat.mod_lt _ (by norm_num)

/-- The weight of the sign bit. -/
def signWeight (neg : Bool) : Nat := if neg then 2 ^ 31 else 0

/-- A pattern is its three fields side by side. -/
theorem toNat_eq_fields (b : F32) : b.toNat = signWeight (signField b) + expField b * 2 ^ 23 + fracField b := by
  have hb := b.isLt
  unfold signWeight signField expField fracField
  split
  · next h => simp only [beq_iff_eq] at h; omega
  · next h => simp only [beq_iff_eq] at h; omega

/-- The fields of three fields put side by side. -/
theorem fields_of_sum (neg : Bool) {ex frac : Nat} (hex : ex < 2 ^ 8) (hfrac : frac < 2 ^ 23) :
    let b := BitVec.ofNat 32 (signWeight neg + ex * 2 ^ 23 + frac)
    signField b = neg ∧ expField b = ex ∧ fracField b = frac := by
  intro b
  have hb : b.toNat = signWeight neg + ex * 2 ^ 23 + frac := by
    rw [BitVec.toNat_ofNat, Nat.mod_eq_of_lt]
    unfold signWeight
    split <;> omega
  unfold signField expField fracField
  rw [hb]
  cases neg with
  | false => simp only [signWeight, Bool.false_eq_true, if_false, beq_eq_false_iff_ne]; omega
  | true => simp only [signWeight, if_true, beq_iff_eq]; omega

theorem fpQmin_binary32 : fpQmin binary32 = -149 := by decide
theorem fpQmax_binary32 : fpQmax binary32 = 104 := by decide
theorem fpPrec_binary32 : fpPrec binary32 = 24 := by decide

/-- The value of a pattern by its fields. -/
theorem ofBits32_eq (b : F32) :
    ofBits32 b =
      if expField b = 255 then (if fracField b = 0 then .inf (signField b) else .nan)
      else if expField b = 0 then .fin (signField b) (fracField b) (-149)
      else .fin (signField b) (2 ^ 23 + fracField b) (-149 + (expField b - 1 : Nat)) := by
  rw [← fpQmin_binary32]; rfl

/-- The pattern of a finite canonical value: a subnormal's significand is its fraction, a normal one's hidden bit is left
out. -/
theorem toBits32_fin (d : F32) (neg : Bool) (m : Nat) (e : Int) :
    toBits32 d (.fin neg m e) =
      BitVec.ofNat 32 (signWeight neg + (if m < 2 ^ 23 then m else (e + 149).toNat * 2 ^ 23 + m)) := by
  rw [show e + 149 = e - fpQmin binary32 by rw [fpQmin_binary32]; ring]; rfl

theorem toBits32_inf (d : F32) (neg : Bool) :
    toBits32 d (.inf neg) = BitVec.ofNat 32 (signWeight neg + 255 * 2 ^ 23 + 0) := by
  simp [toBits32, fpToPattern, signWeight, binary32]

theorem magnitude_eq (b : F32) : magnitude b = expField b * 2 ^ 23 + fracField b := by
  have hb := b.isLt
  unfold magnitude expField fracField
  omega

/-- A NaN by its fields. -/
theorem isNaNPattern_iff (b : F32) : isNaNPattern b = true ↔ expField b = 255 ∧ fracField b ≠ 0 := by
  have h1 := expField_lt b
  have h2 := fracField_lt b
  rw [isNaNPattern, decide_eq_true_eq, magnitude_eq]
  omega

theorem isZeroPattern_iff (b : F32) : isZeroPattern b = true ↔ expField b = 0 ∧ fracField b = 0 := by
  rw [isZeroPattern, decide_eq_true_eq, magnitude_eq]
  omega

theorem ofBits32_eq_nan_iff (b : F32) : ofBits32 b = .nan ↔ isNaNPattern b = true := by
  rw [isNaNPattern_iff, ofBits32_eq]
  split_ifs with h1 h2 h3 <;> simp [*]

/-! ## From a pattern to its value and back -/

/-- A pattern that is no NaN is the pattern of its value. -/
theorem toBits32_ofBits32 (d : F32) {b : F32} (h : isNaNPattern b = false) : toBits32 d (ofBits32 b) = b := by
  have hnan : ¬ (expField b = 255 ∧ fracField b ≠ 0) := by rw [← isNaNPattern_iff, h]; simp
  have hfrac := fracField_lt b
  apply BitVec.eq_of_toNat_eq
  rw [← Nat.mod_eq_of_lt b.isLt, toNat_eq_fields b, ofBits32_eq]
  split_ifs with h1 h2 h3
  · rw [toBits32_inf, BitVec.toNat_ofNat, h1, h2]
  · exact absurd ⟨h1, h2⟩ hnan
  · rw [toBits32_fin, BitVec.toNat_ofNat, if_pos hfrac, h3, zero_mul, add_zero]
  · rw [toBits32_fin, BitVec.toNat_ofNat, if_neg (by omega)]
    congr 1
    omega

theorem expField_eq_extract (b : F32) : expField b = (b.extractLsb' 23 8).toNat := by
  rw [BitVec.extractLsb'_toNat, Nat.shiftRight_eq_div_pow]; rfl

/-- The exponent of the pattern made of a draw is all ones. -/
theorem expField_nanPattern (d : F32) : expField (nanPattern d) = 255 := by
  have hbase : BitVec.extractLsb' 23 8 ((d &&& 0x807fffff#32) ||| 0x7f800000#32) = 255#8 := by
    rw [BitVec.extractLsb'_or, BitVec.extractLsb'_and,
      show BitVec.extractLsb' 23 8 0x807fffff#32 = 0#8 by decide,
      show BitVec.extractLsb' 23 8 0x7f800000#32 = 255#8 by decide, BitVec.and_zero, BitVec.zero_or]
  rw [expField_eq_extract, nanPattern]
  split
  · rw [BitVec.extractLsb'_or, hbase]; rfl
  · rw [hbase]; rfl

/-- The fraction of a pattern under its mask. -/
theorem and_fracMask_eq_zero_iff (b : F32) : b &&& 0x007fffff#32 = 0#32 ↔ fracField b = 0 := by
  have hmask : (b &&& 0x007fffff#32).toNat = fracField b := by
    rw [BitVec.toNat_and]
    exact Nat.and_two_pow_sub_one_eq_mod b.toNat 23
  rw [← hmask, ← BitVec.toNat_inj]
  rfl

/-- The fraction of the pattern made of a draw is the draw's, or one bit where the draw has none. -/
theorem fracField_nanPattern (d : F32) : fracField (nanPattern d) ≠ 0 := by
  have hbase : ((d &&& 0x807fffff#32) ||| 0x7f800000#32) &&& 0x007fffff#32 = d &&& 0x007fffff#32 := by
    rw [BitVec.and_or_distrib_right, BitVec.and_assoc]
    simp
  rw [ne_eq, ← and_fracMask_eq_zero_iff, nanPattern]
  split
  · rw [BitVec.and_or_distrib_right, BitVec.or_eq_zero_iff]
    exact fun h => absurd h.2 (by decide)
  · next hd => rwa [hbase]

/-- Whatever bits are drawn, the pattern made of them is a NaN. -/
theorem isNaNPattern_nanPattern (d : F32) : isNaNPattern (nanPattern d) = true :=
  (isNaNPattern_iff _).2 ⟨expField_nanPattern d, fracField_nanPattern d⟩

/-- The value of a canonical value's pattern is that value. -/
theorem ofBits32_toBits32 (d : F32) {v : Fp} (hv : fpCanonical binary32 v = true) : ofBits32 (toBits32 d v) = v := by
  cases v with
  | nan => exact (ofBits32_eq_nan_iff _).2 (isNaNPattern_nanPattern d)
  | inf neg =>
    obtain ⟨hs, hex, hfrac⟩ := fields_of_sum neg (ex := 255) (frac := 0) (by norm_num) (by norm_num)
    rw [toBits32_inf, ofBits32_eq, hs, hex, hfrac, if_pos rfl, if_pos rfl]
  | fin neg m e =>
    simp only [fpCanonical, decide_eq_true_eq, fpQmin_binary32, fpQmax_binary32, fpPrec_binary32] at hv
    rw [toBits32_fin]
    split
    · next hm =>
      obtain ⟨hs, hex, hfrac⟩ := fields_of_sum neg (ex := 0) (by norm_num) hm
      rw [zero_mul, add_zero] at hs hex hfrac
      rw [ofBits32_eq, hs, hex, hfrac, if_neg (by norm_num), if_pos rfl, Fp.fin.injEq]
      exact ⟨rfl, rfl, by omega⟩
    · next hm =>
      -- the hidden bit of a full significand carries into the exponent field
      have hsum : signWeight neg + ((e + 149).toNat * 2 ^ 23 + m) =
          signWeight neg + ((e + 149).toNat + 1) * 2 ^ 23 + (m - 2 ^ 23) := by omega
      obtain ⟨hs, hex, hfrac⟩ := fields_of_sum neg (ex := (e + 149).toNat + 1) (frac := m - 2 ^ 23) (by omega) (by omega)
      rw [hsum, ofBits32_eq, hs, hex, hfrac, if_neg (by omega), if_neg (by omega), Fp.fin.injEq]
      exact ⟨rfl, by omega, by omega⟩

/-- Settles O48: both ways by the three fields of a pattern; the pattern made of a draw is a NaN by its fields. -/
theorem patternsAndValuesCorrespond : Obligations.PatternsAndValuesCorrespond :=
  ⟨fun d _ h => toBits32_ofBits32 d h, fun d _ hv => ofBits32_toBits32 d hv, ofBits32_eq_nan_iff⟩

/-! ## Integers (00_scope.md R14) -/

/-- Settles O46: below 2^24 the magnitude is a significand, and 2^24 itself is a power of two. -/
theorem smallIntegersConvertExactly : Obligations.SmallIntegersConvertExactly := by
  intro n hn
  obtain ⟨hlo, hhi⟩ := abs_le.1 hn
  have hround : RoundsTo binary32 (n : ℚ) (fpOfInt binary32 n) := by
    have h := fpRound_roundsTo (F := binary32) (by decide) (decide (n < 0)) n.natAbs 0
    rwa [fpValue_fin_natAbs, zpow_zero, mul_one] at h
  obtain ⟨v, hv, hf, hval⟩ :
      ∃ v, fpCanonical binary32 v = true ∧ fpIsFinite v = true ∧ fpValue v = (n : ℚ) := by
    by_cases hlt : n.natAbs < 2 ^ 24
    · obtain ⟨v, hv, hf, hval⟩ :=
        exists_canonical (F := binary32) (decide (n < 0)) (e := 0) hlt (by decide) (by decide)
      exact ⟨v, hv, hf, by rw [hval, fpValue_fin_natAbs, zpow_zero, mul_one]⟩
    · have hn' : n = 2 ^ 24 ∨ n = -2 ^ 24 := by omega
      rcases hn' with rfl | rfl
      · exact ⟨.fin false (2 ^ 23) 1, by decide, rfl, by norm_num [fpValue_fin]⟩
      · exact ⟨.fin true (2 ^ 23) 1, by decide, rfl, by norm_num [fpValue_fin]⟩
  rw [i2f32, ofBits32_toBits32 _ (show fpCanonical binary32 (fpOfInt binary32 n) = true from fpRound_canonical ..)]
  rw [← hval] at hround ⊢
  exact hround.exact hv hf

/-! ## The comparison (00_scope.md R12) -/

/-- A finite value is below +0.0 exactly if it has a sign and is not a zero. -/
theorem fpLt_zero_iff (neg : Bool) (m : Nat) (e : Int) :
    fpLt (.fin neg m e) (.fin false 0 (fpQmin binary32)) = true ↔ neg = true ∧ m ≠ 0 := by
  rw [fpLt_fin_iff, fpValue_fin_zero]
  have he : (0 : ℚ) < 2 ^ e := zpow_pos two_pos e
  cases neg with
  | false => rw [fpValue_fin_false]; simpa using mul_nonneg (Nat.cast_nonneg (α := ℚ) m) he.le
  | true => rw [fpValue_fin_true]; simp [mul_pos_iff_of_pos_right he, Nat.pos_iff_ne_zero]

/-- "Strictly negative" is what the bits say. -/
theorem strictlyNegative_eq (v : F32) : strictlyNegative v = isNegativePattern v := by
  have hsign : v.getLsbD 31 = signField v := by
    rw [BitVec.getLsbD, Nat.testBit_eq_decide_div_mod_eq]; rfl
  have hzero := isZeroPattern_iff v
  have hnan := isNaNPattern_iff v
  rw [Bool.eq_iff_iff, strictlyNegative, isNegativePattern, hsign, ofBits32_eq]
  simp only [Bool.and_eq_true, Bool.not_eq_true', ← Bool.not_eq_true, hzero, hnan]
  split_ifs with h1 h2 h3
  · simp [fpLt, h1, h2]
  · simp [fpLt, h1, h2]
  · rw [fpLt_zero_iff]; simp [h3]
  · rw [fpLt_zero_iff]; simp [h1, h3]

/-- Settles O49: finite values are compared at one exponent, and the infinities and NaN by their form. -/
theorem lessThanComparesValues : Obligations.LessThanComparesValues := by
  refine ⟨fun a b ha hb => ?_, fun a => ⟨rfl, ?_⟩, fun a ha => ?_, ⟨rfl, rfl, ?_⟩, strictlyNegative_eq⟩
  · obtain ⟨na, ma, ea, rfl⟩ := eq_fin_of_fpIsFinite ha
    obtain ⟨nb, mb, eb, rfl⟩ := eq_fin_of_fpIsFinite hb
    exact fpLt_fin_iff na nb ma mb ea eb
  · cases a <;> rfl
  · obtain ⟨na, ma, ea, rfl⟩ := eq_fin_of_fpIsFinite ha
    exact ⟨rfl, rfl, rfl, rfl⟩
  · intro n
    cases n <;> rfl

/-! ## `sat_u16` (00_scope.md R13) -/

/-- The truncated magnitude is the floor of the number. -/
theorem floor_fpValue_fin_false (m : Nat) (e : Int) : ⌊fpValue (.fin false m e)⌋ = (truncMag m e : Int) := by
  rw [fpValue_fin_false, truncMag]
  split
  · next he =>
    obtain ⟨k, rfl⟩ := Int.eq_ofNat_of_zero_le he
    rw [Int.toNat_natCast, zpow_natCast]
    exact_mod_cast Int.floor_natCast (R := ℚ) (m * 2 ^ k)
  · next he =>
    obtain ⟨k, hk⟩ : ∃ k : Nat, -e = k := ⟨(-e).toNat, by omega⟩
    rw [← neg_neg e, hk, neg_neg, Int.toNat_natCast, zpow_neg, zpow_natCast, ← div_eq_mul_inv]
    exact_mod_cast Rat.floor_natCast_div_natCast m (2 ^ k)

/-- Settles O47: a negative number's floor is clipped at 0 with it, and the floor of another is its truncation. -/
theorem satU16TruncatesAndSaturates : Obligations.SatU16TruncatesAndSaturates := by
  refine ⟨rfl, rfl, rfl, fun v hv => ?_⟩
  obtain ⟨neg, m, e, rfl⟩ := eq_fin_of_fpIsFinite hv
  cases neg with
  | true =>
    have hle : ⌊fpValue (.fin true m e)⌋ ≤ 0 := by
      have hnn : (0 : ℚ) ≤ m * 2 ^ e := by positivity
      rw [fpValue_fin_true]
      exact Int.floor_nonpos (by linarith)
    rw [Int.toNat_of_nonpos hle]
    rfl
  | false =>
    rw [floor_fpValue_fin_false, Int.toNat_natCast]
    simp only [satU16, Bool.false_eq_true, if_false]
    split
    · next h => rw [min_eq_left h.le]; rfl
    · next h => rw [min_eq_right (not_lt.1 h), BitVec.toNat_ofNat, Nat.mod_eq_of_lt (by omega)]

/-! ## The special operands (00_scope.md R9) -/

/-- Settles O50: each case by the form of its operands; the quotients are computed. -/
theorem specialOperandsOfTheRules : Obligations.SpecialOperandsOfTheRules := by
  refine ⟨fun n m => rfl, by decide +kernel, by decide +kernel, by decide +kernel, fun v hnan hinf => ?_, fun v => ?_⟩
  · cases v with
    | nan => exact absurd rfl hnan
    | inf neg =>
      cases neg with
      | false => rfl
      | true => exact absurd rfl hinf
    | fin neg m e => rfl
  · cases v <;> exact ⟨rfl, rfl, rfl, rfl, rfl, rfl, rfl⟩

end Sys2Proof.Machine
end

section
/-! SUPPORT. No step reads P_CODE_BYTE_ORDER (00_scope.md R4, R5; 20_memory.md R54). -/

namespace Sys2Proof.Machine

/-- An outcome with `f` applied to its next state. -/
def mapNext (f : State → State) : Host.Outcome State Fault Refusal → Host.Outcome State Fault Refusal
  | .next t => .next (f t)
  | .fault r => .fault r
  | .refused r => .refused r

section
variable (o : ByteOrder) (s : State)

theorem respond_withCodeByteOrder (r : Response) :
    respond r (withCodeByteOrder o s) = withCodeByteOrder o (respond r s) := rfl

theorem setInputs_withCodeByteOrder (l : List HostEvent) :
    setInputs l (withCodeByteOrder o s) = withCodeByteOrder o (setInputs l s) := rfl

theorem packCode_withCodeByteOrder (x y z : F32) :
    packCode (withCodeByteOrder o s).params x y z = packCode s.params x y z := rfl

/-- A guarded step is stuck for both blocks or for neither. -/
theorem whenReady_withCodeByteOrder (t : State) :
    whenReady (withCodeByteOrder o s) (withCodeByteOrder o t) = mapNext (withCodeByteOrder o) (whenReady s t) := by
  cases hf : s.fault with
  | none => rw [whenReady_of_ready _ hf, whenReady_of_ready _ (by simpa using hf)]; rfl
  | some r => rw [whenReady_of_stuck _ hf, whenReady_of_stuck _ (by simpa using hf)]; rfl

/-- The build writes the table that P_LUT_FORMAT selects, whatever the byte order. -/
theorem ensureLut_withCodeByteOrder : ensureLut (withCodeByteOrder o s) = withCodeByteOrder o (ensureLut s) := by
  cases hv : s.lutValid with
  | true => simp [ensureLut, hv]
  | false =>
    simp only [ensureLut, buildLut, withCodeByteOrder_lutValid, withCodeByteOrder_lutFormat, hv, Bool.false_eq_true,
      if_false, apply_ite (withCodeByteOrder o)]
    rfl

/-- A command that reads the table answers alike if its answer does not depend on the byte order. -/
theorem respondFromTable_withCodeByteOrder {answer : State → Response}
    (ha : ∀ t, answer (withCodeByteOrder o t) = answer t) :
    respondFromTable answer (withCodeByteOrder o s) = withCodeByteOrder o (respondFromTable answer s) := by
  simp only [respondFromTable, ensureLut_withCodeByteOrder, withCodeByteOrder_fault, ha]
  cases (ensureLut s).fault with
  | none => exact respond_withCodeByteOrder o _ _
  | some r => rfl

/-- Every command commutes with a change of the byte order. -/
theorem exec_withCodeByteOrder (i : Instr) :
    exec i (withCodeByteOrder o s) = mapNext (withCodeByteOrder o) (exec i s) := by
  cases i with
  | pack x y z =>
    simp only [exec, execPack, packCode_withCodeByteOrder, respond_withCodeByteOrder, whenReady_withCodeByteOrder]
  | unpack c =>
    simp only [exec, execUnpack]
    rw [respondFromTable_withCodeByteOrder o s fun _ => rfl, whenReady_withCodeByteOrder]
  | buildLut =>
    simp only [exec, execBuildLut]
    rw [respondFromTable_withCodeByteOrder o s fun _ => rfl, whenReady_withCodeByteOrder]
  | lutRead c =>
    simp only [exec, execLutRead]
    rw [respondFromTable_withCodeByteOrder o s fun _ => rfl, whenReady_withCodeByteOrder]

/-- Every step commutes with a change of the byte order. -/
theorem step_withCodeByteOrder : step (withCodeByteOrder o s) = mapNext (withCodeByteOrder o) (step s) := by
  unfold step
  rw [withCodeByteOrder_inputs]
  split
  · exact whenReady_withCodeByteOrder o s s
  · rfl
  · rfl
  · rw [setInputs_withCodeByteOrder, exec_withCodeByteOrder]

end

/-- Settles O52: a step commutes with a change of the byte order. -/
theorem noStepReadsTheCodeByteOrder : Obligations.NoStepReadsTheCodeByteOrder := fun s o =>
  ⟨fun t h => by rw [step_withCodeByteOrder, h]; rfl, fun r h => by rw [step_withCodeByteOrder, h]; rfl⟩

end Sys2Proof.Machine
end

section
/-! SUPPORT. Every entry of BuildTable() passes the check: n, its root and the reciprocal stay between representable bounds
through each rounding (40_lut_builder.md R91, R93, R94; 60_exceptions.md R152). -/

namespace Sys2Proof.Machine

/-! ## Rounding keeps representable bounds -/

/-- The format represents the number. -/
def Representable (F : FpFormat) (x : ℚ) : Prop :=
  ∃ v, fpCanonical F v = true ∧ fpIsFinite v = true ∧ fpValue v = x

/-- A finite value of the format between two numbers. -/
structure InRange (F : FpFormat) (a b : ℚ) (v : Fp) : Prop where
  canonical : fpCanonical F v = true
  finite : fpIsFinite v = true
  ge : a ≤ fpValue v
  le : fpValue v ≤ b

theorem representable_two_zpow {F : FpFormat} {e : Int} (hmin : fpQmin F ≤ e) (hmax : e ≤ fpQmax F) :
    Representable F (2 ^ e) := by
  have h := exists_canonical (F := F) false (m := 1) (Nat.one_lt_two_pow (Nat.succ_ne_zero _)) hmin hmax
  rwa [fpValue_fin_false, Nat.cast_one, one_mul] at h

theorem Representable.abs_lt {F : FpFormat} {x : ℚ} (h : Representable F x) : |x| < overflowBound F := by
  obtain ⟨v, hv, hf, rfl⟩ := h
  exact abs_fpValue_lt_overflowBound hv hf

/-- A number between two representable ones is rounded to a value between them: each of them is nearer to it than a value
beyond. -/
theorem RoundsTo.inRange {F : FpFormat} {x a b : ℚ} {r : Fp} (h : RoundsTo F x r) (ha : Representable F a)
    (hb : Representable F b) (hax : a ≤ x) (hxb : x ≤ b) : InRange F a b r := by
  have hover : |x| < overflowBound F :=
    (abs_le_max_abs_abs hax hxb).trans_lt (max_lt ha.abs_lt hb.abs_lt)
  cases r with
  | nan => exact h.elim
  | inf neg => exact absurd h.1 (not_le.2 hover)
  | fin neg m e =>
    obtain ⟨hcan, -, -, hnear⟩ := h
    obtain ⟨va, hva, hfa, rfl⟩ := ha
    obtain ⟨vb, hvb, hfb, rfl⟩ := hb
    refine ⟨hcan, rfl, ?_, ?_⟩
    · have hle := (hnear va hva hfa).1
      rw [abs_of_nonneg (sub_nonneg.2 hax)] at hle
      linarith [le_abs_self (x - fpValue (.fin neg m e))]
    · have hle := (hnear vb hvb hfb).1
      rw [abs_sub_comm x (fpValue vb), abs_of_nonneg (sub_nonneg.2 hxb)] at hle
      linarith [neg_le_abs (x - fpValue (.fin neg m e))]

/-- A root between two representable numbers is rounded to a value between them: beyond them the root would be on the wrong
side of a midpoint. -/
theorem SqrtRoundsTo.inRange {F : FpFormat} {x a b : ℚ} {r : Fp} (h : SqrtRoundsTo F x r) (ha : Representable F a)
    (hb : Representable F b) (ha0 : 0 ≤ a) (hb0 : 0 ≤ b) (hax : a ^ 2 ≤ x) (hxb : x ≤ b ^ 2) : InRange F a b r := by
  cases r with
  | nan => exact h.elim
  | inf neg => exact h.elim
  | fin neg m e =>
    obtain ⟨hcan, rfl, -, hmid⟩ := h
    obtain ⟨va, hva, hfa, rfl⟩ := ha
    obtain ⟨vb, hvb, hfb, rfl⟩ := hb
    have hr0 : 0 ≤ fpValue (.fin false m e) := by rw [fpValue_fin_false]; positivity
    refine ⟨hcan, rfl, not_lt.1 fun hlt => ?_, not_lt.1 fun hlt => ?_⟩
    · have hle := (hmid va hva hfa ha0).2.1 hlt
      nlinarith
    · have hle := (hmid vb hvb hfb hb0).1 hlt
      nlinarith

/-! ## The range of n (40_lut_builder.md R93) -/

/-- Folded coordinates of the index space: none below 0 but the implied one, which is at least -1, and their sum is
W_SCALE. -/
theorem tableCoords_bounds {i : Nat} (h : i < nLut) :
    0 ≤ (tableCoords i).xb ∧ 0 ≤ (tableCoords i).yb ∧ -1 ≤ (tableCoords i).zb ∧
      (tableCoords i).xb + (tableCoords i).yb + (tableCoords i).zb = 126 := by
  have hx : i / 128 ≤ 63 := by unfold nLut at h; omega
  have hy : i % 128 ≤ 127 := by omega
  simp only [tableCoords, foldCoords, decFoldT, foldK, wScale]
  split_ifs <;> omega

/-- The bounds of a sum of squares with the sum 126. -/
theorem sum_of_squares_bounds {x y z : Int} (hx : 0 ≤ x) (hy : 0 ≤ y) (hz : -1 ≤ z) (hsum : x + y + z = 126) :
    5292 ≤ x * x + y * y + z * z ∧ x * x + y * y + z * z ≤ 16130 := by
  obtain rfl : z = 126 - x - y := by omega
  refine ⟨by nlinarith [sq_nonneg (x - y), sq_nonneg (x + y - 84)], ?_⟩
  nlinarith [mul_nonneg hx hy, mul_nonneg (add_nonneg hx hy) (show 0 ≤ 127 - x - y by omega)]

theorem tableNorm2_bounds {i : Nat} (h : i < nLut) : 5292 ≤ tableNorm2 i ∧ tableNorm2 i ≤ 16130 := by
  obtain ⟨hx, hy, hz, hsum⟩ := tableCoords_bounds h
  obtain ⟨hlo, hhi⟩ := sum_of_squares_bounds hx hy hz hsum
  unfold tableNorm2
  dsimp only
  omega

/-! ## The range of an entry -/

theorem qmin_qmax_formatOf (fmt : ArithFormat) : fpQmin (formatOf fmt) ≤ -149 ∧ 104 ≤ fpQmax (formatOf fmt) := by
  cases fmt <;> decide

theorem representable_two_zpow_formatOf (fmt : ArithFormat) {e : Int} (hmin : -149 ≤ e) (hmax : e ≤ 104) :
    Representable (formatOf fmt) (2 ^ e) := by
  obtain ⟨hqmin, hqmax⟩ := qmin_qmax_formatOf fmt
  exact representable_two_zpow (by omega) (by omega)

/-- A natural number below 2^24 is exact in both formats. -/
theorem fpOfInt_natCast_exact (fmt : ArithFormat) {n : Nat} (hn : n < 2 ^ 24) :
    InRange (formatOf fmt) n n (fpOfInt (formatOf fmt) n) := by
  obtain ⟨hqmin, hqmax⟩ := qmin_qmax_formatOf fmt
  have hprec : 2 ^ 24 ≤ 2 ^ fpPrec (formatOf fmt) := by cases fmt <;> decide
  have hround : fpOfInt (formatOf fmt) n = fpRound (formatOf fmt) false n 0 := by
    rw [fpOfInt, decide_eq_false (by omega), Int.natAbs_natCast]
  obtain ⟨hfin, hval⟩ := fpRound_exact (formatOf_fracBits_pos fmt) false (e := 0) (hn.trans_le hprec)
    (by omega) (by omega)
  rw [fpValue_fin_false, zpow_zero, mul_one] at hval
  rw [hround]
  exact ⟨fpRound_canonical .., hfin, hval.ge, hval.le⟩

/-- The root of n is between 64 and 128. -/
theorem fpSqrt_norm_inRange (fmt : ArithFormat) {n : Nat} (hlo : 5292 ≤ n) (hhi : n ≤ 16130) :
    InRange (formatOf fmt) (2 ^ (6 : Int)) (2 ^ (7 : Int)) (fpSqrt (formatOf fmt) (fpOfInt (formatOf fmt) n)) := by
  have hn := fpOfInt_natCast_exact fmt (n := n) (by omega)
  have hval : fpValue (fpOfInt (formatOf fmt) n) = n := le_antisymm hn.le hn.ge
  have hloQ : (5292 : ℚ) ≤ n := by exact_mod_cast hlo
  have hhiQ : (n : ℚ) ≤ 16130 := by exact_mod_cast hhi
  refine (squareRootIsCorrectlyRounded fmt _ hn.canonical ⟨hn.finite, by linarith⟩).inRange
    (representable_two_zpow_formatOf fmt (by norm_num) (by norm_num))
    (representable_two_zpow_formatOf fmt (by norm_num) (by norm_num)) (by norm_num) (by norm_num) ?_ ?_
  · rw [hval]; norm_num; linarith
  · rw [hval]; norm_num; linarith

/-- The reciprocal of the root is between 1/128 and 1/64. -/
theorem fpDiv_root_inRange (fmt : ArithFormat) {n : Nat} (hlo : 5292 ≤ n) (hhi : n ≤ 16130) :
    InRange (formatOf fmt) (2 ^ (-7 : Int)) (2 ^ (-6 : Int))
      (fpDiv (formatOf fmt) (fpOfInt (formatOf fmt) 1) (fpSqrt (formatOf fmt) (fpOfInt (formatOf fmt) n))) := by
  have hone := fpOfInt_natCast_exact fmt (n := 1) (by norm_num)
  have hval : fpValue (fpOfInt (formatOf fmt) 1) = 1 := by
    exact_mod_cast le_antisymm hone.le hone.ge
  have hroot := fpSqrt_norm_inRange fmt hlo hhi
  have hpos : 0 < fpValue (fpSqrt (formatOf fmt) (fpOfInt (formatOf fmt) n)) :=
    lt_of_lt_of_le (by norm_num) hroot.ge
  refine (divisionIsCorrectlyRounded fmt _ _ hone.canonical hroot.canonical hone.finite hroot.finite hpos.ne').inRange
    (representable_two_zpow_formatOf fmt (by norm_num) (by norm_num))
    (representable_two_zpow_formatOf fmt (by norm_num) (by norm_num)) ?_ ?_
  · rw [Nat.cast_one, hval, zpow_neg, ← one_div]
    exact one_div_le_one_div_of_le hpos hroot.le
  · rw [Nat.cast_one, hval, zpow_neg, ← one_div]
    exact one_div_le_one_div_of_le (by norm_num) hroot.ge

/-- In both formats the binary32 value of an entry is between 1/128 and 1/64. -/
theorem invSqrt_inRange (fmt : ArithFormat) {n : Nat} (hlo : 5292 ≤ n) (hhi : n ≤ 16130) :
    InRange binary32 (2 ^ (-7 : Int)) (2 ^ (-6 : Int)) (invSqrt fmt n) := by
  have hquot := fpDiv_root_inRange fmt hlo hhi
  cases fmt with
  | binary32 => exact hquot
  | binary64 =>
    exact (conversionsRoundOrAreExact.1 _ hquot.canonical hquot.finite).inRange
      (representable_two_zpow (by decide) (by decide)) (representable_two_zpow (by decide) (by decide))
      hquot.ge hquot.le

/-! ## The check -/

/-- The pattern of a positive finite value passes the check. -/
theorem entryOk_of_inRange {a b : ℚ} {v : Fp} (h : InRange binary32 a b v) (ha : 0 < a) (draw : F32) :
    entryOk (toBits32 draw v) = true := by
  have hlt : fpLt (.fin false 0 (fpQmin binary32)) v = true :=
    (lessThanComparesValues.1 _ _ rfl h.finite).2 (by rw [fpValue_fin_zero]; exact ha.trans_le h.ge)
  rw [entryOk, ofBits32_toBits32 draw h.canonical, h.finite, hlt]
  rfl

/-- Every entry passes the check, in both formats (60_exceptions.md R152). -/
theorem entryOk_tableEntry (fmt : ArithFormat) {i : Nat} (h : i < nLut) : entryOk (tableEntry fmt i) = true := by
  obtain ⟨hlo, hhi⟩ := tableNorm2_bounds h
  exact entryOk_of_inRange (invSqrt_inRange fmt hlo hhi) (by norm_num) _

/-- BuildTable() passes CheckLut(). -/
theorem checkLut_buildTable (fmt : ArithFormat) : checkLut (buildTable fmt) = true := by
  refine (checkLut_iff (buildTable_wf fmt)).2 fun i v hv => ?_
  have hi : i < nLut := by
    by_contra hge
    rw [Memory.read_above (buildTable_wf fmt) (not_lt.1 hge)] at hv
    cases hv
  rw [buildTable_read fmt hi] at hv
  cases hv
  exact entryOk_tableEntry fmt hi

end Sys2Proof.Machine
end

section
/-! SUPPORT. The next state of every command, and what holds of it: no build faults, so a command either leaves the table alone
or leaves a valid one (40_lut_builder.md R95, R96, R97; 41_encoder.md R110; 42_decoder.md R130). -/

namespace Sys2Proof.Machine

/-! ## The on-demand build -/

/-- The state with a valid table: the one that is there, or BuildTable(). -/
def withTable (s : State) : State :=
  { s with lut := if s.lutValid then s.lut else buildTable s.params.lutFormat, lutValid := true }

@[simp] theorem withTable_params (s : State) : (withTable s).params = s.params := rfl
@[simp] theorem withTable_lutValid (s : State) : (withTable s).lutValid = true := rfl
@[simp] theorem withTable_fault (s : State) : (withTable s).fault = s.fault := rfl
@[simp] theorem withTable_inputs (s : State) : (withTable s).inputs = s.inputs := rfl
@[simp] theorem withTable_responses (s : State) : (withTable s).responses = s.responses := rfl
@[simp] theorem withTable_resets (s : State) : (withTable s).resets = s.resets := rfl

theorem withTable_of_valid {s : State} (h : s.lutValid = true) : withTable s = s := by
  cases s; cases h; rfl

theorem withTable_lut_of_invalid {s : State} (h : s.lutValid = false) :
    (withTable s).lut = buildTable s.params.lutFormat := by
  simp [withTable, h]

theorem afterTableCommand_eq (s : State) (r : Response) : afterTableCommand s r = respond r (withTable s) := rfl

/-- The build of 40_lut_builder.md R95 leaves a valid table: its check passes. -/
theorem ensureLut_eq_withTable (s : State) : ensureLut s = withTable s := by
  rcases ensureLut_cases s with ⟨hv, he⟩ | ⟨hv, -, he⟩ | ⟨-, hc, -⟩
  · rw [he, withTable_of_valid hv]
  · simp [he, withTable, hv]
  · simp [checkLut_buildTable] at hc

/-! ## The commands -/

/-- The response of a command in a state, as `exec` computes it. -/
def answerIn (s : State) : Instr → Response
  | .pack x y z => .code (packCode s.params x y z)
  | .unpack c => .vec (unpackWith (lutEntry (withTable s)) c)
  | .buildLut => .done
  | .lutRead c => .word (lutEntry (withTable s) (mindex c))

/-- The state after a command that delivers `r`: PACK has no use for the table. -/
def afterCommand (s : State) (r : Response) : Instr → State
  | .pack _ _ _ => respond r s
  | .unpack _ => afterTableCommand s r
  | .buildLut => afterTableCommand s r
  | .lutRead _ => afterTableCommand s r

/-- A table-reading command of any state: the guard, then the response from the table that the build leaves. -/
theorem whenReady_respondFromTable (answer : State → Response) (s : State) :
    whenReady s (respondFromTable answer s) = whenReady s (afterTableCommand s (answer (withTable s))) := by
  cases hf : s.fault with
  | none => simp [respondFromTable, ensureLut_eq_withTable, hf, afterTableCommand_eq]
  | some r => rw [whenReady_of_stuck _ hf, whenReady_of_stuck _ hf]

/-- Every command of every state: stuck, or its response and its effect on the table. -/
theorem exec_eq (i : Instr) (s : State) : exec i s = whenReady s (afterCommand s (answerIn s i) i) := by
  cases i with
  | pack x y z => rfl
  | unpack c => exact whenReady_respondFromTable (fun t => .vec (unpackWith (lutEntry t) c)) s
  | buildLut => exact whenReady_respondFromTable (fun _ => .done) s
  | lutRead c => exact whenReady_respondFromTable (fun t => .word (lutEntry t (mindex c))) s

/-- Whatever the command, it responds over the state it found or over the one with a valid table. -/
theorem afterCommand_cases (s : State) (r : Response) (i : Instr) :
    afterCommand s r i = respond r s ∨ afterCommand s r i = respond r (withTable s) := by
  cases i with
  | pack x y z => exact .inl rfl
  | unpack c => exact .inr rfl
  | buildLut => exact .inr rfl
  | lutRead c => exact .inr rfl

/-- A command that gives a next state was not stuck, and all it does is respond, with or without a build before. -/
theorem exec_next {i : Instr} {s t : State} (h : exec i s = .next t) :
    s.fault = none ∧ ∃ r, t = respond r s ∨ t = respond r (withTable s) := by
  rw [exec_eq] at h
  obtain ⟨hf, rfl⟩ := whenReady_next h
  exact ⟨hf, _, afterCommand_cases s _ i⟩

/-! ## The invariant -/

/-- The invariant is about the table, its valid bit, the fault and the parameters only. -/
theorem Inv.congr {s t : State} (h : Inv s) (hparams : t.params = s.params) (hlut : t.lut = s.lut)
    (hvalid : t.lutValid = s.lutValid) (hfault : t.fault = s.fault) : Inv t where
  wf := by rw [hlut]; exact h.wf
  built hf hv := by
    have hb := h.built (hfault ▸ hf) (hvalid ▸ hv)
    rwa [TableBuilt, hparams, hlut]
  faulted hf := by rw [hvalid]; exact h.faulted (hfault ▸ hf)

theorem Inv.respond {s : State} (h : Inv s) (r : Response) : Inv (respond r s) := h.congr rfl rfl rfl rfl

theorem Inv.setInputs {s : State} (h : Inv s) (l : List HostEvent) : Inv (setInputs l s) := h.congr rfl rfl rfl rfl

/-- A block whose table is empty and invalid meets the invariant if it records no fault. -/
theorem inv_of_empty {s : State} (hlut : s.lut = []) (hvalid : s.lutValid = false) : Inv s where
  wf := by rw [hlut]; exact Memory.wf_nil
  built _ hv := by rw [hvalid] at hv; cases hv
  faulted _ := hvalid

/-- Reset gives the invariant, whatever held before (10_state.md R42). -/
theorem inv_resetBlock (s : State) : Inv (resetBlock s) := inv_of_empty rfl rfl

theorem tableBuilt_withTable {s : State} (h : Inv s) (hs : Safe s) : TableBuilt (withTable s) := by
  cases hv : s.lutValid with
  | true => rw [withTable_of_valid hv]; exact h.built hs hv
  | false =>
    intro i hi
    rw [withTable_lut_of_invalid hv]
    exact buildTable_read _ hi

theorem Inv.withTable {s : State} (h : Inv s) (hs : Safe s) : Inv (withTable s) where
  wf := by
    cases hv : s.lutValid with
    | true => rw [withTable_of_valid hv]; exact h.wf
    | false => rw [withTable_lut_of_invalid hv]; exact buildTable_wf _
  built _ _ := tableBuilt_withTable h hs
  faulted hf := absurd hs hf

/-- Every command keeps the invariant. -/
theorem exec_keeps_inv {i : Instr} {s t : State} (h : Inv s) (he : exec i s = .next t) : Inv t := by
  obtain ⟨hf, r, rfl | rfl⟩ := exec_next he
  · exact h.respond r
  · exact (h.withTable hf).respond r

/-! ## The response -/

/-- In a built table the storage reads as BuildTable(). -/
theorem lutEntry_of_built {s : State} (h : TableBuilt s) : lutEntry s = tableFn s.params.lutFormat := by
  funext i
  have hi : i.toNat < nLut := i.isLt
  simp [lutEntry, h _ hi, tableFn]

/-- A block that meets the invariant answers by the parameters and the command alone (10_state.md R41). -/
theorem answerIn_eq_responseOf {s : State} (h : Inv s) (hs : Safe s) (i : Instr) :
    answerIn s i = responseOf s.params i := by
  have hlut := lutEntry_of_built (tableBuilt_withTable h hs)
  rw [withTable_params] at hlut
  cases i with
  | pack x y z => rfl
  | unpack c => rw [answerIn, hlut]; rfl
  | buildLut => rfl
  | lutRead c => rw [answerIn, hlut]; rfl

/-- Every command of a block that meets the invariant and is not stuck completes, with the response of the stateless codec. -/
theorem exec_of_inv {s : State} (h : Inv s) (hs : Safe s) (i : Instr) :
    exec i s = .next (afterCommand s (responseOf s.params i) i) := by
  rw [exec_eq, whenReady_of_ready _ hs, answerIn_eq_responseOf h hs]

end Sys2Proof.Machine
end

section
/-! SUPPORT. The settled statements about the invariant, and the block as a stateless codec: every step, and so every run, of a
block that meets the invariant delivers the responses of one function of the parameters and each command (10_state.md R40, R41;
20_memory.md R60; 70_reset_and_hazards.md R174). -/

namespace Sys2Proof.Machine

/-! ## The invariant -/

/-- Settles O9: the fields of the state after reset. -/
theorem resetStateHasTheSpecsValues : Obligations.ResetStateHasTheSpecsValues := ⟨rfl, rfl, rfl, rfl, rfl⟩

/-- Settles O12: reset leaves no table and no fault. -/
theorem resetMeetsTheInvariant : Obligations.ResetMeetsTheInvariant := fun _ => ⟨inv_of_empty rfl rfl, rfl⟩

/-- Settles O13, by the cases of a step: idle, the two reset events, and a request. -/
theorem everyStepKeepsTheInvariant : Obligations.EveryStepKeepsTheInvariant := by
  intro s t h hstep
  obtain ⟨-, -, rfl⟩ | ⟨rest, -, rfl⟩ | ⟨w, rest, -, rfl⟩ | ⟨w, rest, -, he⟩ := step_cases hstep
  · exact h
  · exact inv_resetBlock _
  · exact inv_resetBlock _
  · exact exec_keeps_inv (h.setInputs rest) he

/-- Settles O15: without a reset event the step is idle or a command, which runs only with no fault recorded and leaves
a valid table as it found it. -/
theorem onlyResetUndoesTheBuild : Obligations.OnlyResetUndoesTheBuild := by
  intro s t hstep
  obtain ⟨-, hf, rfl⟩ | ⟨rest, hin, rfl⟩ | ⟨w, rest, hin, rfl⟩ | ⟨w, rest, -, he⟩ := step_cases hstep
  · exact ⟨rfl, fun _ => ⟨hf, fun hv => ⟨hv, rfl⟩⟩⟩
  · exact ⟨rfl, fun hno => absurd hin (hno rest 0).1⟩
  · exact ⟨rfl, fun hno => absurd hin (hno rest w).2⟩
  · obtain ⟨hf, r, rfl | rfl⟩ := exec_next he
    · exact ⟨rfl, fun _ => ⟨hf, fun hv => ⟨hv, rfl⟩⟩⟩
    · exact ⟨rfl, fun _ => ⟨hf, fun hv => ⟨rfl, by
        rw [respond_lut, withTable_of_valid (s := setInputs rest s) hv, setInputs_lut]⟩⟩⟩

/-! ## Runs -/

/-- What the stateless codec delivers for one event: the response to a request, and nothing for a reset. -/
def eventResponses (params : Params) : HostEvent → List Response
  | .request w => [responseOf params (decode w)]
  | .reset => []
  | .resetDuring _ => []

/-- `t` is a block with the parameters of `s` that has delivered `out` since `s` and has `rest` still offered, whatever its
table; it meets the invariant and is not stuck, so that the run goes on from it. -/
structure Reaches (s : State) (out : List Response) (rest : List HostEvent) (t : State) : Prop where
  inv : Inv t
  safe : Safe t
  params : t.params = s.params
  responses : t.responses = s.responses ++ out
  inputs : t.inputs = rest

theorem Reaches.refl {s : State} (h : Inv s) (hs : Safe s) : Reaches s [] s.inputs s :=
  ⟨h, hs, rfl, (List.append_nil _).symm, rfl⟩

theorem Reaches.trans {s t u : State} {out out' : List Response} {rest rest' : List HostEvent}
    (h : Reaches s out rest t) (h' : Reaches t out' rest' u) : Reaches s (out ++ out') rest' u :=
  ⟨h'.inv, h'.safe, h'.params.trans h.params, by rw [h'.responses, h.responses, List.append_assoc], h'.inputs⟩

theorem reaches_resetBlock (s : State) (rest : List HostEvent) : Reaches s [] rest (resetBlock (setInputs rest s)) :=
  ⟨inv_resetBlock _, rfl, rfl, (List.append_nil _).symm, rfl⟩

/-- A request that is accepted: the command delivers its response and consumes nothing further. -/
theorem reaches_afterCommand {s : State} (h : Inv s) (hs : Safe s) (rest : List HostEvent) (r : Response) (i : Instr) :
    Reaches s [r] rest (afterCommand (setInputs rest s) r i) := by
  have h' := h.setInputs rest
  rcases afterCommand_cases (setInputs rest s) r i with he | he
  · rw [he]; exact ⟨h'.respond r, hs, rfl, rfl, rfl⟩
  · rw [he]; exact ⟨(h'.withTable hs).respond r, hs, rfl, rfl, rfl⟩

/-- One step performs the next event as the stateless codec does. -/
theorem step_reaches {s : State} (h : Inv s) (hs : Safe s) :
    ∃ t, step s = .next t ∧
      Reaches s ((s.inputs.take 1).flatMap (eventResponses s.params)) (s.inputs.drop 1) t := by
  cases hin : s.inputs with
  | nil =>
    refine ⟨s, by simp only [step, hin, whenReady_of_ready s hs], ?_⟩
    simpa [hin] using Reaches.refl h hs
  | cons ev rest =>
    cases ev with
    | request w =>
      refine ⟨_, by simp only [step, hin]; exact exec_of_inv (h.setInputs rest) hs (decode w), ?_⟩
      exact reaches_afterCommand h hs rest _ (decode w)
    | reset => exact ⟨_, by simp only [step, hin], reaches_resetBlock s rest⟩
    | resetDuring w => exact ⟨_, by simp only [step, hin], reaches_resetBlock s rest⟩

/-- `n` steps perform the next `n` events, or all if fewer are offered, as the stateless codec does. -/
theorem stepMany_reaches (n : Nat) {s : State} (h : Inv s) (hs : Safe s) :
    ∃ t, stepMany n s = .next t ∧
      Reaches s ((s.inputs.take n).flatMap (eventResponses s.params)) (s.inputs.drop n) t := by
  induction n generalizing s with
  | zero => exact ⟨s, rfl, Reaches.refl h hs⟩
  | succ n ih =>
    obtain ⟨t, hstep, ht⟩ := step_reaches h hs
    obtain ⟨u, hmany, hu⟩ := ih ht.inv ht.safe
    refine ⟨u, by simp only [stepMany, hstep, hmany], ?_⟩
    have hsu := ht.trans hu
    rwa [ht.inputs, ht.params, ← List.flatMap_append, List.drop_drop, Nat.add_comm 1 n, ← List.take_add,
      Nat.add_comm 1 n] at hsu

/-- Settles O39: the events of a program are its requests, each answered by the stateless codec. -/
theorem blockRefinesAStatelessCodec : Obligations.BlockRefinesAStatelessCodec := by
  intro p rest s h hs hin
  obtain ⟨t, hmany, ht⟩ := stepMany_reaches p.length h hs
  have hresponses := ht.responses
  have hinputs := ht.inputs
  have hlen : (p.map HostEvent.request).length = p.length := List.length_map _
  rw [hin, List.take_left' hlen, List.flatMap_map] at hresponses
  rw [hin, List.drop_left' hlen] at hinputs
  exact ⟨t, hmany, by rw [hresponses, List.map_eq_flatMap]; rfl, hinputs, ht.inv, ht.safe⟩

/-- Settles O40: both blocks deliver what the stateless codec does for the same parameters and events. -/
theorem theTableIsUnobservable : Obligations.TheTableIsUnobservable := by
  intro n s s' h hs h' hs' hparams hinputs hresponses
  obtain ⟨t, hmany, ht⟩ := stepMany_reaches n h hs
  obtain ⟨t', hmany', ht'⟩ := stepMany_reaches n h' hs'
  refine ⟨t, t', hmany, hmany', ?_, ?_⟩
  · rw [ht.responses, ht'.responses, hparams, hinputs, hresponses]
  · rw [ht.inputs, ht'.inputs, hinputs]

end Sys2Proof.Machine
end

section
/-! SUPPORT. When a command needs no build, and the settled statements about the frame of every command and about a command that
is issued again (20_memory.md R53, R57). -/

namespace Sys2Proof.Machine

/-! ## Commands that need no build -/

/-- PACK has no use for the table, and any other command builds only an invalid one (20_memory.md R53). -/
def NeedsNoBuild (i : Instr) (s : State) : Prop := (∃ x y z, i = .pack x y z) ∨ s.lutValid = true

/-- All that a command does if it needs no build is to respond. -/
theorem afterCommand_of_needsNoBuild {i : Instr} {s : State} (h : NeedsNoBuild i s) (r : Response) :
    afterCommand s r i = respond r s := by
  obtain ⟨x, y, z, rfl⟩ | hv := h
  · rfl
  · rcases afterCommand_cases s r i with he | he
    · exact he
    · rw [he, withTable_of_valid hv]

/-- A command leaves a block in which the same command needs no build. -/
theorem needsNoBuild_afterCommand (s : State) (r : Response) (i : Instr) : NeedsNoBuild i (afterCommand s r i) := by
  cases i with
  | pack x y z => exact .inl ⟨x, y, z, rfl⟩
  | unpack c => exact .inr rfl
  | buildLut => exact .inr rfl
  | lutRead c => exact .inr rfl

/-- No command changes the parameters (10_state.md R37). -/
theorem afterCommand_params (s : State) (r : Response) (i : Instr) : (afterCommand s r i).params = s.params := by
  rcases afterCommand_cases s r i with he | he <;> rw [he] <;> rfl

/-- Every command delivers its response, after those already delivered. -/
theorem afterCommand_responses (s : State) (r : Response) (i : Instr) :
    (afterCommand s r i).responses = s.responses ++ [r] := by
  rcases afterCommand_cases s r i with he | he <;> rw [he] <;> rfl

/-- No command of a block that is not stuck records a fault. -/
theorem safe_afterCommand {s : State} (hs : Safe s) (r : Response) (i : Instr) : Safe (afterCommand s r i) := by
  rcases afterCommand_cases s r i with he | he <;> rw [he] <;> exact hs

/-- `exec_next` with the reason for the build: only a command that needs it has the table built before its response. -/
theorem exec_next_build {i : Instr} {s t : State} (h : exec i s = .next t) :
    s.fault = none ∧ ∃ r, t = respond r s ∨ (¬ NeedsNoBuild i s ∧ t = respond r (withTable s)) := by
  rw [exec_eq] at h
  obtain ⟨hf, rfl⟩ := whenReady_next h
  refine ⟨hf, answerIn s i, ?_⟩
  by_cases hn : NeedsNoBuild i s
  · exact .inl (afterCommand_of_needsNoBuild hn _)
  · exact (afterCommand_cases s _ i).imp_right fun he => ⟨hn, he⟩

/-! ## The settled statements -/

/-- Settles O16: a command responds over the state it found, or over the one with BuildTable() in place of an invalid table;
outside the index space both tables are unwritten. -/
theorem frameOfEveryCommand : Obligations.FrameOfEveryCommand := by
  intro i s t he
  obtain ⟨hf, r, rfl | ⟨hbuild, rfl⟩⟩ := exec_next_build he
  · exact ⟨rfl, rfl, rfl, .inl ⟨hf, r, rfl⟩, fun _ => ⟨rfl, rfl, rfl⟩, .inl rfl, fun _ _ _ => rfl⟩
  · have hv : s.lutValid = false := Bool.eq_false_of_not_eq_true fun hv => hbuild (.inr hv)
    have hlut : (respond r (withTable s)).lut = buildTable s.params.lutFormat := withTable_lut_of_invalid hv
    refine ⟨rfl, rfl, rfl, .inl ⟨hf, r, rfl⟩, fun hn => absurd hn hbuild, .inr ⟨hv, fun k hk => ?_⟩, fun hwf k hk => ?_⟩
    · rw [hlut, buildTable_read _ hk]
    · rw [hlut, Memory.read_above (buildTable_wf _) hk, Memory.read_above hwf hk]

/-- Settles O38: after the first command the second needs no build, so that its response, the one of the stateless codec for
the same parameters, is all it adds. -/
theorem sameCommandTwiceSameResponse : Obligations.SameCommandTwiceSameResponse := by
  intro i s h hs
  have hfirst := exec_of_inv h hs i
  have hsecond := exec_of_inv (exec_keeps_inv h hfirst) (safe_afterCommand hs _ i) i
  rw [afterCommand_of_needsNoBuild (needsNoBuild_afterCommand s _ i), afterCommand_params] at hsecond
  exact ⟨_, hfirst, afterCommand_responses s _ i, hsecond⟩

end Sys2Proof.Machine
end

section
/-! SUPPORT. Request words by their fields: a word is its five fields side by side, so that decoding and encoding are read off
the fields; and the settled statements about the decoder (30_encoding.md R75 to R78). -/

namespace Sys2Proof

/-! ## A word and its fields (30_encoding.md R75) -/

/-- op, bits 113:112. -/
def fieldOp (w : Request) : BitVec 2 := w.extractLsb' 112 2

/-- Every request word is its five fields side by side. -/
theorem requestWord_fields (w : Request) :
    requestWord (fieldOp w) (fieldX w) (fieldY w) (fieldZ w) (fieldCode w) = w := by
  apply BitVec.eq_of_getLsbD_eq
  intro i hi
  rw [getLsbD_requestWord]
  simp only [fieldOp, fieldX, fieldY, fieldZ, fieldCode, BitVec.getLsbD_extractLsb']
  split_ifs
  · simp [*]
  · simp [show i - 16 < 32 by omega, show 16 + (i - 16) = i by omega]
  · simp [show i - 48 < 32 by omega, show 48 + (i - 48) = i by omega]
  · simp [show i - 80 < 32 by omega, show 80 + (i - 80) = i by omega]
  · simp [show i - 112 < 2 by omega, show 112 + (i - 112) = i by omega]

section
variable (op op' : BitVec 2) (x x' y y' z z' : F32) (code code' : Code) (w : Request)

theorem requestWord_and :
    requestWord op x y z code &&& requestWord op' x' y' z' code' =
      requestWord (op &&& op') (x &&& x') (y &&& y') (z &&& z') (code &&& code') := by
  apply BitVec.eq_of_getLsbD_eq
  intro i hi
  simp only [BitVec.getLsbD_and, getLsbD_requestWord]
  split_ifs <;> rfl

theorem requestWord_or :
    requestWord op x y z code ||| requestWord op' x' y' z' code' =
      requestWord (op ||| op') (x ||| x') (y ||| y') (z ||| z') (code ||| code') := by
  apply BitVec.eq_of_getLsbD_eq
  intro i hi
  simp only [BitVec.getLsbD_or, getLsbD_requestWord]
  split_ifs <;> rfl

/-- A word under a mask and over another word, field by field: the shape of `encodeWith`. -/
theorem and_or_requestWord :
    (w &&& requestWord op x y z code) ||| requestWord op' x' y' z' code' =
      requestWord (fieldOp w &&& op ||| op') (fieldX w &&& x ||| x') (fieldY w &&& y ||| y') (fieldZ w &&& z ||| z')
        (fieldCode w &&& code ||| code') := by
  conv_lhs => rw [← requestWord_fields w]
  rw [requestWord_and, requestWord_or]

/-! ## The encoder: each field is the operand if the instruction uses it, else the filler's (30_encoding.md R77) -/

@[simp] theorem encodeWith_pack : encodeWith w (.pack x y z) = requestWord 0b00#2 x y z (fieldCode w) := by
  simp [encodeWith, ignoredBits, encode, and_or_requestWord, -BitVec.reduceAllOnes]

@[simp] theorem encodeWith_unpack :
    encodeWith w (.unpack code) = requestWord 0b01#2 (fieldX w) (fieldY w) (fieldZ w) code := by
  simp [encodeWith, ignoredBits, encode, and_or_requestWord, -BitVec.reduceAllOnes]

@[simp] theorem encodeWith_buildLut :
    encodeWith w .buildLut = requestWord 0b10#2 (fieldX w) (fieldY w) (fieldZ w) (fieldCode w) := by
  simp [encodeWith, ignoredBits, encode, and_or_requestWord, -BitVec.reduceAllOnes]

@[simp] theorem encodeWith_lutRead :
    encodeWith w (.lutRead code) = requestWord 0b11#2 (fieldX w) (fieldY w) (fieldZ w) code := by
  simp [encodeWith, ignoredBits, encode, and_or_requestWord, -BitVec.reduceAllOnes]

/-! ## The decoder (30_encoding.md R78) -/

/-- The bits that `decode` looks at are those of op. -/
theorem op_bits_requestWord :
    (requestWord op x y z code).getLsbD 113 = op.getLsbD 1 ∧ (requestWord op x y z code).getLsbD 112 = op.getLsbD 0 := by
  simp only [getLsbD_requestWord]
  exact ⟨rfl, rfl⟩

@[simp] theorem decode_requestWord_pack : decode (requestWord 0b00#2 x y z code) = .pack x y z := by
  simp [decode, op_bits_requestWord, -BitVec.getLsbD_eq_getElem]

@[simp] theorem decode_requestWord_unpack : decode (requestWord 0b01#2 x y z code) = .unpack code := by
  simp [decode, op_bits_requestWord, -BitVec.getLsbD_eq_getElem]

@[simp] theorem decode_requestWord_buildLut : decode (requestWord 0b10#2 x y z code) = .buildLut := by
  simp [decode, op_bits_requestWord, -BitVec.getLsbD_eq_getElem]

@[simp] theorem decode_requestWord_lutRead : decode (requestWord 0b11#2 x y z code) = .lutRead code := by
  simp [decode, op_bits_requestWord, -BitVec.getLsbD_eq_getElem]

/-- The four values of op. -/
theorem op_cases : op = 0b00#2 ∨ op = 0b01#2 ∨ op = 0b10#2 ∨ op = 0b11#2 := by
  revert op
  decide

/-- Encoding inverts decoding, over the bits of the word itself. -/
theorem encodeWith_decode_requestWord :
    encodeWith (requestWord op x y z code) (decode (requestWord op x y z code)) = requestWord op x y z code := by
  obtain rfl | rfl | rfl | rfl := op_cases op
  · simp
  · simp
  · simp
  · simp

end

/-! ## The settled statements -/

/-- Settles O1, field by field: the word over a filler holds the operands where the instruction's decoding looks; and a word
of each of the four commands is the command's operands over the rest of the word. -/
theorem decodeInvertsEncodeForAnyIgnoredBits : Obligations.DecodeInvertsEncodeForAnyIgnoredBits := by
  refine ⟨fun i filler _ => ?_, fun w => ?_⟩
  · cases i with
    | pack x y z => rw [encodeWith_pack, decode_requestWord_pack]
    | unpack c => rw [encodeWith_unpack, decode_requestWord_unpack]
    | buildLut => rw [encodeWith_buildLut, decode_requestWord_buildLut]
    | lutRead c => rw [encodeWith_lutRead, decode_requestWord_lutRead]
  · have h := encodeWith_decode_requestWord (fieldOp w) (fieldX w) (fieldY w) (fieldZ w) (fieldCode w)
    rwa [requestWord_fields] at h

/-- Settles O2: six fixed words, evaluated. -/
theorem requestWordsOfTheSpecDecode : Obligations.RequestWordsOfTheSpecDecode := by
  unfold Obligations.RequestWordsOfTheSpecDecode
  decide

end Sys2Proof
end

section
/-! SUPPORT. The fields of a code as arithmetic on the code, its sign flags, and the settled statements about them
(30_encoding.md R70 to R73, R80). -/

namespace Sys2Proof.Machine

/-! ## The fields of a code (30_encoding.md R71) -/

section
variable (c : Code)

/-- A mask of low bits takes a remainder. -/
theorem toNat_and_lowMask (k : Nat) (h : k ≤ 16) : (c &&& BitVec.ofNat 16 (2 ^ k - 1)).toNat = c.toNat % 2 ^ k := by
  have hk : 2 ^ k - 1 < 2 ^ 16 := (Nat.sub_lt (Nat.two_pow_pos k) one_pos).trans_le (Nat.pow_le_pow_right two_pos h)
  rw [BitVec.toNat_and, BitVec.toNat_ofNat, Nat.mod_eq_of_lt hk, Nat.and_two_pow_sub_one_eq_mod]

theorem toNat_mindex : (mindex c).toNat = c.toNat % 8192 := by
  simp [mindex]

theorem yfield_eq : yfield c = c.toNat % 128 := toNat_and_lowMask c 7 (by decide)

theorem xfield_eq : xfield c = c.toNat / 128 % 64 := by
  have hmask : (c &&& 0x1f80#16) >>> 7 = (c >>> 7) &&& 0x3f#16 := BitVec.ushiftRight_and_distrib c 0x1f80#16 7
  rw [xfield, hmask]
  exact (toNat_and_lowMask (c >>> 7) 6 (by decide)).trans (by simp [Nat.shiftRight_eq_div_pow])

/-- The index of LUT_READ is the code under its mask (30_encoding.md R80). -/
theorem toNat_mindex_eq_and : (mindex c).toNat = (c &&& 0x1fff#16).toNat :=
  (toNat_mindex c).trans (toNat_and_lowMask c 13 (by decide)).symm

end

/-! ## The sign flags (30_encoding.md R70) -/

/-- The bits of a flag at bit `k`. -/
theorem getLsbD_flag (b : Bool) {k : Nat} (hk : k < 16) (i : Nat) :
    (if b then BitVec.twoPow 16 k else 0#16).getLsbD i = (decide (i = k) && b) := by
  cases b with
  | false => simp
  | true => simp [BitVec.getLsbD_twoPow, hk, eq_comm]

/-- Bits 15, 14 and 13 of the sign flags; the others are 0. -/
theorem getLsbD_signBits (nx ny nz : Bool) (i : Nat) :
    (signBits nx ny nz).getLsbD i = (decide (i = 15) && nx || decide (i = 14) && ny || decide (i = 13) && nz) := by
  have hx : signMaskX = BitVec.twoPow 16 15 := by decide
  have hy : signMaskY = BitVec.twoPow 16 14 := by decide
  have hz : signMaskZ = BitVec.twoPow 16 13 := by decide
  rw [signBits, hx, hy, hz, BitVec.getLsbD_or, BitVec.getLsbD_or, getLsbD_flag nx (by decide), getLsbD_flag ny (by decide),
    getLsbD_flag nz (by decide)]

/-- A code is its sign flags and its magnitude index, bit by bit (30_encoding.md R72). -/
theorem eq_signBits_or_mindex (c : Code) :
    c = signBits (signX c) (signY c) (signZ c) ||| (mindex c).setWidth 16 := by
  apply BitVec.eq_of_getLsbD_eq
  intro i hi
  rw [BitVec.getLsbD_or, getLsbD_signBits, BitVec.getLsbD_setWidth, mindex, BitVec.getLsbD_extractLsb', signX, signY, signZ]
  have hcases : i < 13 ∨ i = 13 ∨ i = 14 ∨ i = 15 := by omega
  obtain h | rfl | rfl | rfl := hcases
  · simp [h, show i ≠ 13 by omega, show i ≠ 14 by omega, show i ≠ 15 by omega, hi]
  · simp
  · simp
  · simp

/-! ## The settled statements -/

/-- Settles O3: the fields are quotients and remainders of the code. -/
theorem codeIsSignsAndMagnitudeIndex : Obligations.CodeIsSignsAndMagnitudeIndex := by
  intro c
  have hm := toNat_mindex c
  have hx := xfield_eq c
  have hy := yfield_eq c
  exact ⟨by omega, by omega, by omega, eq_signBits_or_mindex c⟩

/-- Settles O21: LUT_READ reads its operand through the magnitude index alone. -/
theorem lutReadIgnoresTheSignBits : Obligations.LutReadIgnoresTheSignBits := by
  refine ⟨toNat_mindex_eq_and, fun c d s h => ?_⟩
  have hindex : mindex c = mindex d := by
    apply BitVec.eq_of_toNat_eq
    rw [toNat_mindex_eq_and, toNat_mindex_eq_and, h]
  simp only [exec, execLutRead, hindex]

end Sys2Proof.Machine
end

section
/-! SUPPORT. The step on a request, and the settled statements about requests (30_encoding.md R78, R82;
70_reset_and_hazards.md R174). -/

namespace Sys2Proof.Machine

/-- Every instruction is well formed (30_encoding.md R82). -/
theorem wellFormed_eq_true (i : Instr) : i.wellFormed = true := by
  cases i with
  | pack x y z => rfl
  | unpack c => rfl
  | buildLut => rfl
  | lutRead c => rfl

/-- A request that comes next is consumed and performed (70_reset_and_hazards.md R174). -/
theorem step_of_request {s : State} {w : Request} {rest : List HostEvent} (h : s.inputs = .request w :: rest) :
    step s = exec (decode w) (setInputs rest s) := by
  simp only [step, h]

/-- Settles O4: every request decodes to a well-formed instruction, which the step performs. -/
theorem stepRunsTheDecodedRequest : Obligations.StepRunsTheDecodedRequest :=
  fun _ w _ h => ⟨wellFormed_eq_true (decode w), step_of_request h⟩

/-- Every command is a guarded step, and so is refused in no state. -/
theorem exec_not_refused (i : Instr) (s : State) (r : Refusal) : exec i s ≠ .refused r := by
  cases i with
  | pack x y z => exact whenReady_not_refused s _ r
  | unpack c => exact whenReady_not_refused s _ r
  | buildLut => exact whenReady_not_refused s _ r
  | lutRead c => exact whenReady_not_refused s _ r

/-- Settles O6, by what is offered next: nothing, a reset, a reset that cuts a command, a request. -/
theorem noStepIsRefused : Obligations.NoStepIsRefused := by
  intro s r
  unfold step
  split
  · exact whenReady_not_refused s s r
  · exact nofun
  · exact nofun
  · exact exec_not_refused _ _ r

end Sys2Proof.Machine
end

section
/-! SUPPORT. The order of the positive patterns, the ends of the range of n and of the entries, and the settled statements about
the table, BUILD_LUT and LUT_READ (40_lut_builder.md R93, R95, R96, R97). -/

namespace Sys2Proof.Machine

/-! ## Positive patterns are ordered as their values (00_scope.md R7) -/

/-- Only a finite value without a sign is positive. -/
theorem eq_fin_false_of_fpValue_pos {v : Fp} (h : 0 < fpValue v) : ∃ m e, v = .fin false m e := by
  cases v with
  | nan => exact (lt_irrefl _ h).elim
  | inf neg => exact (lt_irrefl _ h).elim
  | fin neg m e =>
    cases neg with
    | false => exact ⟨m, e, rfl⟩
    | true =>
      rw [fpValue_fin_true, neg_pos] at h
      exact absurd h (not_lt.2 (by positivity))

/-- The pattern of a finite value without a sign, as a number: the hidden bit of a full significand carries into the exponent
field. -/
theorem toNat_of_ofBits32_eq_fin {b : F32} {m : Nat} {e : Int} (h : ofBits32 b = .fin false m e) :
    b.toNat = (e + 149).toNat * 2 ^ 23 + m := by
  rw [toNat_eq_fields b]
  rw [ofBits32_eq] at h
  split_ifs at h with hinf hfrac hsub
  · injection h with hneg hm he
    rw [hneg, hsub, ← hm, ← he]; rfl
  · injection h with hneg hm he
    rw [hneg, signWeight]
    simp only [Bool.false_eq_true, if_false]
    omega

/-- The order of positive patterns as unsigned integers is the order of their values. -/
theorem toNat_le_toNat_of_fpValue_le {a b : F32} (ha : 0 < fpValue (ofBits32 a))
    (h : fpValue (ofBits32 a) ≤ fpValue (ofBits32 b)) : a.toNat ≤ b.toNat := by
  obtain ⟨ma, ea, hfa⟩ := eq_fin_false_of_fpValue_pos ha
  obtain ⟨mb, eb, hfb⟩ := eq_fin_false_of_fpValue_pos (ha.trans_le h)
  have hca := ofBits32_canonical a
  have hcb := ofBits32_canonical b
  rw [hfa, hfb, fpValue_fin_false, fpValue_fin_false] at h
  rw [hfa] at hca
  rw [hfb] at hcb
  simp only [fpCanonical, decide_eq_true_eq, fpQmin_binary32, fpQmax_binary32, fpPrec_binary32] at hca hcb
  rw [toNat_of_ofBits32_eq_fin hfa, toNat_of_ofBits32_eq_fin hfb]
  rcases lt_trichotomy ea eb with hlt | rfl | hgt
  · omega
  · have hm : (ma : ℚ) ≤ mb := le_of_mul_le_mul_right h (zpow_pos two_pos ea)
    exact Nat.add_le_add_left (by exact_mod_cast hm) _
  · -- a full significand at a higher exponent is above every significand at a lower one
    have hma : (2 ^ 23 : ℚ) ≤ ma := by exact_mod_cast (by omega : 2 ^ 23 ≤ ma)
    have hmb : (mb : ℚ) < 2 ^ 24 := by exact_mod_cast hcb.1
    have hpow : (2 : ℚ) ^ (eb + 1) ≤ 2 ^ ea := zpow_le_zpow_right₀ one_le_two (by omega)
    refine absurd h (not_le.2 ?_)
    calc (mb : ℚ) * 2 ^ eb < 2 ^ 24 * 2 ^ eb := mul_lt_mul_of_pos_right hmb (zpow_pos two_pos eb)
      _ = 2 ^ 23 * 2 ^ (eb + 1) := by rw [zpow_add_one₀ two_ne_zero]; ring
      _ ≤ ma * 2 ^ ea := mul_le_mul hma hpow (zpow_pos two_pos _).le (Nat.cast_nonneg ma)

/-- The pattern of a value between those of two patterns, the lower one positive, lies between them. -/
theorem toNat_toBits32_bounds_of_inRange {lo hi draw : F32} {v : Fp} (hlo : 0 < fpValue (ofBits32 lo))
    (h : InRange binary32 (fpValue (ofBits32 lo)) (fpValue (ofBits32 hi)) v) :
    lo.toNat ≤ (toBits32 draw v).toNat ∧ (toBits32 draw v).toNat ≤ hi.toNat := by
  obtain ⟨hcan, -, hge, hle⟩ := h
  rw [← ofBits32_toBits32 draw hcan] at hge hle
  exact ⟨toNat_le_toNat_of_fpValue_le hlo hge, toNat_le_toNat_of_fpValue_le (hlo.trans_le hge) hle⟩

/-! ## The ends of the range of n (40_lut_builder.md R93) -/

theorem tableNorm2_cast (i : Nat) :
    (tableNorm2 i : Int) = (tableCoords i).xb * (tableCoords i).xb + (tableCoords i).yb * (tableCoords i).yb +
      (tableCoords i).zb * (tableCoords i).zb :=
  Int.toNat_of_nonneg (by nlinarith)

/-- With the sum 126, a sum of squares exceeds 5292 by the squares of the distances from 42. -/
theorem sum_of_squares_eq_min_iff {x y z : Int} (hsum : x + y + z = 126) :
    x * x + y * y + z * z = 5292 ↔ x = 42 ∧ y = 42 ∧ z = 42 := by
  constructor
  · intro h
    have hdist : (x - 42) ^ 2 + (y - 42) ^ 2 + (z - 42) ^ 2 = 0 := by linear_combination h - 84 * hsum
    have hx0 : x - 42 = 0 := sq_eq_zero_iff.1 (by nlinarith [sq_nonneg (y - 42), sq_nonneg (z - 42)])
    have hy0 : y - 42 = 0 := sq_eq_zero_iff.1 (by nlinarith [sq_nonneg (x - 42), sq_nonneg (z - 42)])
    omega
  · rintro ⟨rfl, rfl, rfl⟩
    rfl

/-- With the sum 126, a sum of squares falls short of 16130 by `2xy + 2(1 + x + y)(127 - x - y)`. -/
theorem sum_of_squares_eq_max_iff {x y z : Int} (hx : 0 ≤ x) (hy : 0 ≤ y) (hz : -1 ≤ z) (hsum : x + y + z = 126) :
    x * x + y * y + z * z = 16130 ↔ z = -1 ∧ (x = 0 ∨ y = 0) := by
  obtain rfl : z = 126 - x - y := by omega
  have hxy := mul_nonneg hx hy
  have hfold : 0 ≤ (1 + x + y) * (127 - x - y) := mul_nonneg (by omega) (by omega)
  have hshort : 16130 - (x * x + y * y + (126 - x - y) * (126 - x - y)) =
      2 * (x * y) + 2 * ((1 + x + y) * (127 - x - y)) := by ring
  constructor
  · intro h
    have hxy0 : x * y = 0 := by omega
    have hfold0 : (1 + x + y) * (127 - x - y) = 0 := by omega
    have hsum127 := (mul_eq_zero.1 hfold0).resolve_left (by omega)
    exact ⟨by omega, mul_eq_zero.1 hxy0⟩
  · rintro ⟨hz1, hzero⟩
    have hxy0 : x * y = 0 := mul_eq_zero.2 hzero
    have hsum127 : 127 - x - y = 0 := by omega
    rw [hxy0, hsum127] at hshort
    omega

/-- The coordinates all 42 are those of index 5418 alone. -/
theorem tableCoords_center_iff {i : Nat} (h : i < nLut) :
    (tableCoords i).xb = 42 ∧ (tableCoords i).yb = 42 ∧ (tableCoords i).zb = 42 ↔ i = 5418 := by
  unfold nLut at h
  simp only [tableCoords, foldCoords, decFoldT, foldK, wScale]
  split_ifs <;> omega

/-- A boundary index with a coordinate 0 is 127: the fold leaves the first coordinate at 64 or more. -/
theorem tableCoords_corner_iff {i : Nat} (h : i < nLut) :
    (tableCoords i).zb = -1 ∧ ((tableCoords i).xb = 0 ∨ (tableCoords i).yb = 0) ↔ i = 127 := by
  unfold nLut at h
  simp only [tableCoords, foldCoords, decFoldT, foldK, wScale]
  split_ifs <;> omega

theorem tableNorm2_eq_min_iff {i : Nat} (h : i < nLut) : tableNorm2 i = 5292 ↔ i = 5418 := by
  obtain ⟨-, -, -, hsum⟩ := tableCoords_bounds h
  rw [← tableCoords_center_iff h, ← sum_of_squares_eq_min_iff hsum, ← tableNorm2_cast]
  norm_cast

theorem tableNorm2_eq_max_iff {i : Nat} (h : i < nLut) : tableNorm2 i = 16130 ↔ i = 127 := by
  obtain ⟨hx, hy, hz, hsum⟩ := tableCoords_bounds h
  rw [← tableCoords_corner_iff h, ← sum_of_squares_eq_max_iff hx hy hz hsum, ← tableNorm2_cast]
  norm_cast

/-! ## Square root and reciprocal between representable bounds -/

/-- A short significand at an exponent of binary32 is representable in both formats. -/
theorem representable_formatOf (fmt : ArithFormat) {m : Nat} {e : Int} (hm : m < 2 ^ 24) (hmin : -149 ≤ e) (hmax : e ≤ 104) :
    Representable (formatOf fmt) (m * 2 ^ e) := by
  obtain ⟨hqmin, hqmax⟩ := qmin_qmax_formatOf fmt
  have hprec : 2 ^ 24 ≤ 2 ^ fpPrec (formatOf fmt) := by cases fmt <;> decide
  have h := exists_canonical (F := formatOf fmt) false (e := e) (hm.trans_le hprec) (by omega) (by omega)
  rwa [fpValue_fin_false] at h

section
variable (fmt : ArithFormat) {a b c d : ℚ}

theorem fpSqrt_natCast_inRange {n : Nat} (hn0 : 0 < n) (hn : n < 2 ^ 24) (ha : Representable (formatOf fmt) a)
    (hb : Representable (formatOf fmt) b) (ha0 : 0 ≤ a) (hb0 : 0 ≤ b) (han : a ^ 2 ≤ n) (hnb : n ≤ b ^ 2) :
    InRange (formatOf fmt) a b (fpSqrt (formatOf fmt) (fpOfInt (formatOf fmt) n)) := by
  have hexact := fpOfInt_natCast_exact fmt hn
  have hval : fpValue (fpOfInt (formatOf fmt) n) = n := le_antisymm hexact.le hexact.ge
  have hpos : 0 < fpValue (fpOfInt (formatOf fmt) n) := by rw [hval]; exact_mod_cast hn0
  exact (squareRootIsCorrectlyRounded fmt _ hexact.canonical ⟨hexact.finite, hpos⟩).inRange ha hb ha0 hb0
    (by rwa [hval]) (by rwa [hval])

theorem fpDiv_one_inRange {r : Fp} (hr : InRange (formatOf fmt) a b r) (ha : 0 < a) (hc : Representable (formatOf fmt) c)
    (hd : Representable (formatOf fmt) d) (hcb : c ≤ 1 / b) (had : 1 / a ≤ d) :
    InRange (formatOf fmt) c d (fpDiv (formatOf fmt) (fpOfInt (formatOf fmt) 1) r) := by
  have hone := fpOfInt_natCast_exact fmt (n := 1) (by norm_num)
  have hval : fpValue (fpOfInt (formatOf fmt) 1) = 1 := by exact_mod_cast le_antisymm hone.le hone.ge
  have hpos : 0 < fpValue r := ha.trans_le hr.ge
  refine (divisionIsCorrectlyRounded fmt _ r hone.canonical hr.canonical hone.finite hr.finite hpos.ne').inRange hc hd ?_ ?_
  · rw [Nat.cast_one, hval]
    exact hcb.trans (one_div_le_one_div_of_le hpos hr.le)
  · rw [Nat.cast_one, hval]
    exact (one_div_le_one_div_of_le ha hr.ge).trans had

end

/-! ## The range of the entries (40_lut_builder.md R93) -/

theorem fpValue_entryMin : fpValue (ofBits32 0x3c0100fe#32) = (8454398 : Nat) * 2 ^ (-30 : Int) := by
  rw [show ofBits32 0x3c0100fe#32 = .fin false 8454398 (-30) by decide, fpValue_fin_false]

theorem fpValue_entryMax : fpValue (ofBits32 0x3c6138bb#32) = (14760123 : Nat) * 2 ^ (-30 : Int) := by
  rw [show ofBits32 0x3c6138bb#32 = .fin false 14760123 (-30) by decide, fpValue_fin_false]

/-- Away from its two ends, n is between 72.75² and 127², and the reciprocals of these roots are well within the range of the
entries. -/
theorem invSqrt_inRange_of_interior (fmt : ArithFormat) {n : Nat} (hlo : 5292 < n) (hhi : n < 16130) :
    InRange binary32 (fpValue (ofBits32 0x3c0100fe#32)) (fpValue (ofBits32 0x3c6138bb#32)) (invSqrt fmt n) := by
  have hloQ : (5293 : ℚ) ≤ n := by exact_mod_cast hlo
  have hhiQ : (n : ℚ) ≤ 16129 := by exact_mod_cast Nat.le_of_lt_succ hhi
  have hmin (f : ArithFormat) : Representable (formatOf f) (fpValue (ofBits32 0x3c0100fe#32)) :=
    fpValue_entryMin ▸ representable_formatOf f (by norm_num) (by norm_num) (by norm_num)
  have hmax (f : ArithFormat) : Representable (formatOf f) (fpValue (ofBits32 0x3c6138bb#32)) :=
    fpValue_entryMax ▸ representable_formatOf f (by norm_num) (by norm_num) (by norm_num)
  have hroot := fpSqrt_natCast_inRange fmt (n := n) (by omega) (by omega)
    (representable_formatOf fmt (m := 291) (e := -2) (by norm_num) (by norm_num) (by norm_num))
    (representable_formatOf fmt (m := 127) (e := 0) (by norm_num) (by norm_num) (by norm_num))
    (by norm_num) (by norm_num) (by norm_num; linarith) (by norm_num; linarith)
  have hquot := fpDiv_one_inRange fmt hroot (by norm_num) (hmin fmt) (hmax fmt)
    (by rw [fpValue_entryMin]; norm_num) (by rw [fpValue_entryMax]; norm_num)
  cases fmt with
  | binary32 => exact hquot
  | binary64 =>
    exact (conversionsRoundOrAreExact.1 _ hquot.canonical hquot.finite).inRange (hmin .binary32) (hmax .binary32)
      hquot.ge hquot.le

/-- The entry of the least n is the greatest one in binary32; in binary64 it is one unit below. -/
theorem tableEntry_5418 :
    tableEntry .binary32 5418 = 0x3c6138bb#32 ∧ tableEntry .binary64 5418 = 0x3c6138ba#32 := ⟨rfl, rfl⟩

/-- The entry of the greatest n is the least one, in both formats. -/
theorem tableEntry_127 (fmt : ArithFormat) : tableEntry fmt 127 = 0x3c0100fe#32 := by
  cases fmt with
  | binary32 => rfl
  | binary64 => rfl

theorem tableEntry_bounds (fmt : ArithFormat) {i : Nat} (h : i < nLut) :
    0x3c0100fe ≤ (tableEntry fmt i).toNat ∧ (tableEntry fmt i).toNat ≤ 0x3c6138bb := by
  obtain ⟨hlo, hhi⟩ := tableNorm2_bounds h
  by_cases hmin : i = 5418
  · obtain ⟨h32, h64⟩ := tableEntry_5418
    rw [hmin]
    cases fmt with
    | binary32 => rw [h32]; decide
    | binary64 => rw [h64]; decide
  by_cases hmax : i = 127
  · rw [hmax, tableEntry_127]; decide
  have hnmin : tableNorm2 i ≠ 5292 := mt (tableNorm2_eq_min_iff h).1 hmin
  have hnmax : tableNorm2 i ≠ 16130 := mt (tableNorm2_eq_max_iff h).1 hmax
  refine toNat_toBits32_bounds_of_inRange ?_ (invSqrt_inRange_of_interior fmt (by omega) (by omega))
  rw [fpValue_entryMin]
  norm_num

theorem fpIsFinite_tableEntry (fmt : ArithFormat) {i : Nat} (h : i < nLut) :
    fpIsFinite (ofBits32 (tableEntry fmt i)) = true :=
  (Bool.and_eq_true_iff.1 (entryOk_tableEntry fmt h)).1

/-! ## The settled statements -/

/-- Settles O17: n is a sum of squares with the sum of coordinates fixed; its two ends are evaluated, and between them an entry
is bounded through each of its roundings. -/
theorem tableNormsAndEntriesAreInRange : Obligations.TableNormsAndEntriesAreInRange := by
  refine ⟨by decide, by decide, fun i h => ?_⟩
  obtain ⟨hlo, hhi⟩ := tableNorm2_bounds h
  obtain ⟨hx, hy, hz, hsum⟩ := tableCoords_bounds h
  exact ⟨⟨hlo, hhi, tableNorm2_eq_min_iff h, tableNorm2_eq_max_iff h⟩, by omega,
    fun fmt => ⟨fpIsFinite_tableEntry fmt h, tableEntry_bounds fmt h⟩⟩

/-- A table-reading command leaves the storage equal to BuildTable(), for its response changes no entry. -/
theorem tableBuilt_afterTableCommand {s : State} (h : Inv s) (hs : Safe s) (r : Response) :
    TableBuilt (afterTableCommand s r) :=
  tableBuilt_withTable h hs

theorem afterTableCommand_of_valid {s : State} (h : s.lutValid = true) (r : Response) :
    afterTableCommand s r = respond r s := by
  rw [afterTableCommand_eq, withTable_of_valid h]

/-- The worked example of 40_lut_builder.md R96. -/
theorem tableEntry_binary32_zero : tableEntry .binary32 0 = 0x3c020821#32 := rfl

/-- Settles O19: the command of a block that meets the invariant completes, over a table that is built whether or not it was. -/
theorem buildLutAnswersDone : Obligations.BuildLutAnswersDone := by
  intro s h hs
  have hbuilt := tableBuilt_afterTableCommand h hs .done
  refine ⟨exec_of_inv h hs .buildLut, hbuilt, fun hv => afterTableCommand_of_valid hv .done, fun hfmt => ?_⟩
  have hread : (afterTableCommand s .done).lut.read 0 = some (tableEntry s.params.lutFormat 0) := hbuilt 0 (by decide)
  rw [hread, hfmt, tableEntry_binary32_zero]

/-- Settles O20: the response is the stateless codec's, read at the magnitude index, which lies in the index space. -/
theorem lutReadAnswersTheTableEntry : Obligations.LutReadAnswersTheTableEntry := by
  intro c s h hs
  have hindex : c.toNat % 8192 < nLut := Nat.mod_lt _ (by decide)
  refine ⟨?_, entryOk_tableEntry _ hindex⟩
  rw [← toNat_mindex]
  exact exec_of_inv h hs (.lutRead c)

end Sys2Proof.Machine
end

section
/-! SUPPORT. The operands of the encoder after PackSigns, and the settled statements about its signs and its answer
(41_encoder.md R111, R120, R121). -/

namespace Sys2Proof.Machine

/-! ## PackSigns by the bits (41_encoder.md R111) -/

theorem toNat_and_magnitudeMask (v : F32) : (v &&& 0x7fffffff#32).toNat = magnitude v := by
  rw [BitVec.toNat_and]
  exact Nat.and_two_pow_sub_one_eq_mod v.toNat 31

/-- Flipping a sign bit that is set clears it. -/
theorem fneg32_of_signBit {v : F32} (h : v.getLsbD 31 = true) : fneg32 v = v &&& 0x7fffffff#32 := by
  apply BitVec.eq_of_getLsbD_eq
  intro i hi
  have hmasks : ∀ j < 32, (0x80000000#32).getLsbD j = decide (j = 31) ∧ (0x7fffffff#32).getLsbD j = decide (j ≠ 31) := by
    decide
  obtain ⟨hflip, hmask⟩ := hmasks i hi
  rw [fneg32, BitVec.getLsbD_xor, BitVec.getLsbD_and, hflip, hmask]
  by_cases h31 : i = 31
  · subst h31; simp [h]
  · simp [h31]

/-- A component after `PackSigns`, by the bits of the operand. -/
theorem packMagnitude_eq (v : F32) : packMagnitude v = if isNegativePattern v then v &&& 0x7fffffff#32 else v := by
  rw [packMagnitude, strictlyNegative_eq]
  split
  · next h =>
    simp only [isNegativePattern, Bool.and_eq_true] at h
    obtain ⟨⟨hsign, -⟩, -⟩ := h
    exact fneg32_of_signBit hsign
  · rfl

/-- `PackSigns` keeps the pattern but for its sign bit. -/
@[simp] theorem magnitude_packMagnitude (v : F32) : magnitude (packMagnitude v) = magnitude v := by
  rw [packMagnitude_eq]
  split
  · rw [magnitude, toNat_and_magnitudeMask, magnitude, Nat.mod_mod]
  · rfl

@[simp] theorem isNaNPattern_packMagnitude (v : F32) : isNaNPattern (packMagnitude v) = isNaNPattern v := by
  simp [isNaNPattern]

@[simp] theorem isInfPattern_packMagnitude (v : F32) : isInfPattern (packMagnitude v) = isInfPattern v := by
  simp [isInfPattern]

@[simp] theorem isZeroPattern_packMagnitude (v : F32) : isZeroPattern (packMagnitude v) = isZeroPattern v := by
  simp [isZeroPattern]

/-- No component is negative after `PackSigns`. -/
@[simp] theorem isNegativePattern_packMagnitude (v : F32) : isNegativePattern (packMagnitude v) = false := by
  rw [packMagnitude_eq]
  split
  · simp [isNegativePattern]
  · next h => simpa using h

theorem packSigns_signs (x y z : F32) : (packSigns x y z).signs = signsByBits x y z := by
  simp only [packSigns, signsByBits, strictlyNegative_eq]

/-- Settles O28: a strictly negative component has its sign bit set, so that flipping the bit clears it. -/
theorem packSignsFollowTheBits : Obligations.PackSignsFollowTheBits := by
  intro x y z
  refine ⟨?_, isNegativePattern_packMagnitude x, isNegativePattern_packMagnitude y, isNegativePattern_packMagnitude z⟩
  simp only [packSigns, signsByBits, strictlyNegative_eq, packMagnitude_eq]

/-- Only a pattern that is neither a zero nor a NaN is strictly negative. -/
theorem isNegativePattern_eq_false_of_zero {v : F32} (h : isZeroPattern v = true) : isNegativePattern v = false := by
  simp [isNegativePattern, h]

theorem isNegativePattern_eq_false_of_nan {v : F32} (h : isNaNPattern v = true) : isNegativePattern v = false := by
  simp [isNegativePattern, h]

/-! ## PACK's answer (41_encoder.md R110, R120) -/

/-- The code is a function of the operands, the format and the policy. -/
theorem packCode_eq (params : Params) (x y z : F32) :
    packCode params x y z =
      packCompose params.satPolicy (signsByBits x y z) (packFold (projectionsOf params.packFormat x y z)) := by
  rw [← packSigns_signs]; rfl

/-- PACK of a block that is not stuck answers its code. -/
theorem exec_pack {s : State} (hs : Safe s) (x y z : F32) :
    exec (.pack x y z) s = .next { s with responses := s.responses ++ [.code (packCode s.params x y z)] } :=
  whenReady_of_ready _ hs

/-- Settles O27: the guard passes, and the code reads two parameters alone. -/
theorem packAlwaysAnswersACode : Obligations.PackAlwaysAnswersACode := by
  refine ⟨fun x y z s hs => exec_pack hs x y z, fun p q x y z hfmt hpol => ?_⟩
  rw [packCode_eq, packCode_eq, hfmt, hpol]

end Sys2Proof.Machine
end

section
/-! SUPPORT. The operands of the encoder's arithmetic and their sum: a NaN, +inf, or a finite value that is not negative
(41_encoder.md R111, R112), and the settled statement about an infinite component (R118). -/

namespace Sys2Proof.Machine

/-! ## Values that are not negative -/

/-- A finite value of the format that is not negative; -0.0 is one. -/
structure NonnegFinite (F : FpFormat) (v : Fp) : Prop where
  canonical : fpCanonical F v = true
  finite : fpIsFinite v = true
  nonneg : 0 ≤ fpValue v

/-- +inf or a finite value that is not negative. -/
def Nonneg (F : FpFormat) (v : Fp) : Prop := v = .inf false ∨ NonnegFinite F v

theorem NonnegFinite.representable {F : FpFormat} {v : Fp} (h : NonnegFinite F v) : Representable F (fpValue v) :=
  ⟨v, h.canonical, h.finite, rfl⟩

theorem nonnegFinite_zero (F : FpFormat) (neg : Bool) : NonnegFinite F (.fin neg 0 (fpQmin F)) where
  canonical := fpRound_zero F neg 0 ▸ fpRound_canonical F neg 0 0
  finite := rfl
  nonneg := (fpValue_fin_zero neg _).ge

/-- A finite value with the number 0 has the significand 0. -/
theorem fpValue_fin_eq_zero_iff (neg : Bool) (m : Nat) (e : Int) : fpValue (.fin neg m e) = 0 ↔ m = 0 := by
  cases neg with
  | false => simp [fpValue_fin_false, zpow_ne_zero]
  | true => simp [fpValue_fin_true, zpow_ne_zero]

/-! ## Correct rounding is monotone against representable numbers -/

section
variable {F : FpFormat} {x a : ℚ} {r : Fp}

/-- A finite rounded value is not below a representable number that the exact one is not below. -/
theorem RoundsTo.ge_of_representable (h : RoundsTo F x r) (hr : fpIsFinite r = true) (ha : Representable F a) (hax : a ≤ x) :
    a ≤ fpValue r := by
  obtain ⟨neg, m, e, rfl⟩ := eq_fin_of_fpIsFinite hr
  obtain ⟨-, -, -, hnear⟩ := h
  obtain ⟨v, hv, hf, rfl⟩ := ha
  have hle := (hnear v hv hf).1
  rw [abs_of_nonneg (sub_nonneg.2 hax)] at hle
  linarith [le_abs_self (x - fpValue (.fin neg m e))]

/-- A number that is not negative rounds to +inf or to a finite value that is not negative. -/
theorem RoundsTo.nonneg (h : RoundsTo F x r) (hc : fpCanonical F r = true) (hx : 0 ≤ x) : Nonneg F r := by
  cases r with
  | nan => exact h.elim
  | inf neg =>
    cases neg with
    | false => exact .inl rfl
    | true =>
      obtain ⟨-, hsign⟩ := h
      exact absurd (hsign.1 rfl) (not_lt.2 hx)
  | fin neg m e =>
    have hzero : Representable F 0 := ⟨_, (nonnegFinite_zero F false).canonical, rfl, fpValue_fin_zero _ _⟩
    exact .inr ⟨hc, rfl, h.ge_of_representable rfl hzero hx⟩

end

/-! ## Sums of values that are not negative (00_scope.md R9) -/

section
variable {F : FpFormat} {v w : Fp}

theorem fpAdd_nan_right (F : FpFormat) (v : Fp) : fpAdd F v .nan = .nan := by cases v <;> rfl

theorem fpAdd_canonical (F : FpFormat) (v w : Fp) : fpCanonical F (fpAdd F v w) = true := by
  rcases v with - | na | ⟨na, ma, ea⟩ <;> rcases w with - | nb | ⟨nb, mb, eb⟩
  case fin.fin =>
    simp only [fpAdd]
    split
    · exact (nonnegFinite_zero F _).canonical
    · exact fpRound_canonical ..
  case inf.inf =>
    simp only [fpAdd]
    split <;> rfl
  all_goals rfl

theorem NonnegFinite.fpAdd_roundsTo (hF : 0 < F.fracBits) (hv : NonnegFinite F v) (hw : NonnegFinite F w) :
    RoundsTo F (fpValue v + fpValue w) (fpAdd F v w) := by
  obtain ⟨na, ma, ea, rfl⟩ := eq_fin_of_fpIsFinite hv.finite
  obtain ⟨nb, mb, eb, rfl⟩ := eq_fin_of_fpIsFinite hw.finite
  exact fpAdd_fin_roundsTo hF na nb ma mb ea eb

/-- An infinite summand makes the sum +inf. -/
theorem fpAdd_eq_inf (hv : Nonneg F v) (hw : Nonneg F w) (hinf : v = .inf false ∨ w = .inf false) :
    fpAdd F v w = .inf false := by
  rcases hinf with rfl | rfl
  · rcases hw with rfl | hw
    · rfl
    · obtain ⟨n, m, e, rfl⟩ := eq_fin_of_fpIsFinite hw.finite
      rfl
  · rcases hv with rfl | hv
    · rfl
    · obtain ⟨n, m, e, rfl⟩ := eq_fin_of_fpIsFinite hv.finite
      rfl

theorem Nonneg.fpAdd (hF : 0 < F.fracBits) (hv : Nonneg F v) (hw : Nonneg F w) : Nonneg F (fpAdd F v w) := by
  by_cases hinf : v = .inf false ∨ w = .inf false
  · exact .inl (fpAdd_eq_inf hv hw hinf)
  · rw [not_or] at hinf
    have hvf := hv.resolve_left hinf.1
    have hwf := hw.resolve_left hinf.2
    exact (hvf.fpAdd_roundsTo hF hwf).nonneg (fpAdd_canonical F v w) (add_nonneg hvf.nonneg hwf.nonneg)

/-- The summands of a finite sum are finite and not above it. -/
theorem Nonneg.le_fpAdd (hF : 0 < F.fracBits) (hv : Nonneg F v) (hw : Nonneg F w)
    (hfin : fpIsFinite (Machine.fpAdd F v w) = true) :
    NonnegFinite F v ∧ NonnegFinite F w ∧ fpValue v ≤ fpValue (Machine.fpAdd F v w) ∧
      fpValue w ≤ fpValue (Machine.fpAdd F v w) := by
  have hinf : ¬ (v = .inf false ∨ w = .inf false) := fun h => by rw [fpAdd_eq_inf hv hw h] at hfin; cases hfin
  rw [not_or] at hinf
  have hvf := hv.resolve_left hinf.1
  have hwf := hw.resolve_left hinf.2
  have hround := hvf.fpAdd_roundsTo hF hwf
  exact ⟨hvf, hwf, hround.ge_of_representable hfin hvf.representable (le_add_of_nonneg_right hwf.nonneg),
    hround.ge_of_representable hfin hwf.representable (le_add_of_nonneg_left hvf.nonneg)⟩

end

/-! ## The values of the operands -/

section
variable {v : F32}

/-- An infinity by its fields. -/
theorem isInfPattern_iff (v : F32) : isInfPattern v = true ↔ expField v = 255 ∧ fracField v = 0 := by
  have hfrac := fracField_lt v
  rw [isInfPattern, decide_eq_true_eq, magnitude_eq]
  omega

theorem ofBits32_of_inf (h : isInfPattern v = true) : ofBits32 v = .inf (signField v) := by
  obtain ⟨hexp, hfrac⟩ := (isInfPattern_iff v).1 h
  rw [ofBits32_eq, if_pos hexp, if_pos hfrac]

theorem ofBits32_of_zero (h : isZeroPattern v = true) : ofBits32 v = .fin (signField v) 0 (fpQmin binary32) := by
  obtain ⟨hexp, hfrac⟩ := (isZeroPattern_iff v).1 h
  rw [ofBits32_eq, if_neg (by omega), if_pos hexp, hfrac, fpQmin_binary32]

/-- Any other pattern that is no NaN has a significand, of at least one unit of the last place. -/
theorem ofBits32_of_nonzero (hnan : isNaNPattern v = false) (hinf : isInfPattern v = false)
    (hzero : isZeroPattern v = false) : ∃ neg m e, ofBits32 v = .fin neg m e ∧ m ≠ 0 := by
  rw [← Bool.not_eq_true, isNaNPattern_iff] at hnan
  rw [← Bool.not_eq_true, isInfPattern_iff] at hinf
  rw [← Bool.not_eq_true, isZeroPattern_iff] at hzero
  rw [ofBits32_eq, if_neg (by tauto)]
  split
  · next h0 => exact ⟨_, _, _, rfl, fun hfrac => hzero ⟨h0, hfrac⟩⟩
  · exact ⟨_, _, _, rfl, by omega⟩

/-- Without a sign, the value of such a pattern is positive, at least 2^-149. -/
theorem ofBits32_of_positive (hneg : isNegativePattern v = false) (hnan : isNaNPattern v = false)
    (hinf : isInfPattern v = false) (hzero : isZeroPattern v = false) :
    fpIsFinite (ofBits32 v) = true ∧ (2 : ℚ) ^ (-149 : Int) ≤ fpValue (ofBits32 v) := by
  have hcan := ofBits32_canonical v
  obtain ⟨neg, m, e, hv, hm⟩ := ofBits32_of_nonzero hnan hinf hzero
  have hsign : neg = false := by
    rw [← strictlyNegative_eq, strictlyNegative, hv, ← Bool.not_eq_true, fpLt_zero_iff] at hneg
    exact Bool.eq_false_iff.2 fun h => hneg ⟨h, hm⟩
  rw [hv] at hcan ⊢
  simp only [fpCanonical, decide_eq_true_eq, fpQmin_binary32] at hcan
  obtain ⟨-, hmin, -, -⟩ := hcan
  refine ⟨rfl, ?_⟩
  rw [hsign, fpValue_fin_false]
  have hmQ : (1 : ℚ) ≤ m := by exact_mod_cast Nat.one_le_iff_ne_zero.2 hm
  calc (2 : ℚ) ^ (-149 : Int) ≤ 2 ^ e := zpow_le_zpow_right₀ one_le_two hmin
    _ ≤ m * 2 ^ e := le_mul_of_one_le_left (zpow_pos two_pos e).le hmQ

/-- Widening keeps the number and gives a canonical value. -/
theorem packOperand_of_finite (fmt : ArithFormat) (h : fpIsFinite (ofBits32 v) = true) :
    fpCanonical (formatOf fmt) (packOperand fmt v) = true ∧ fpIsFinite (packOperand fmt v) = true ∧
      fpValue (packOperand fmt v) = fpValue (ofBits32 v) := by
  cases fmt with
  | binary32 => exact ⟨ofBits32_canonical v, h, rfl⟩
  | binary64 =>
    obtain ⟨hfin, hval⟩ := conversionsRoundOrAreExact.2 _ (ofBits32_canonical v) h
    obtain ⟨neg, m, e, hv⟩ := eq_fin_of_fpIsFinite h
    refine ⟨?_, hfin, hval⟩
    rw [packOperand, hv]
    exact fpRound_canonical ..

end

/-- A component after `PackSigns` as an operand of the encoder's arithmetic (41_encoder.md R111, R112). -/
def magnitudeOperand (fmt : ArithFormat) (v : F32) : Fp := packOperand fmt (packMagnitude v)

theorem sumOf_eq (fmt : ArithFormat) (x y z : F32) :
    sumOf fmt x y z =
      fpAdd (formatOf fmt) (fpAdd (formatOf fmt) (magnitudeOperand fmt x) (magnitudeOperand fmt y)) (magnitudeOperand fmt z) :=
  rfl

section
variable (fmt : ArithFormat) {v : F32}

theorem magnitudeOperand_of_nan (h : isNaNPattern v = true) : magnitudeOperand fmt v = .nan := by
  have hv : ofBits32 (packMagnitude v) = .nan := by rwa [ofBits32_eq_nan_iff, isNaNPattern_packMagnitude]
  cases fmt with
  | binary32 => exact hv
  | binary64 => rw [magnitudeOperand, packOperand, hv]; rfl

theorem magnitudeOperand_of_inf (h : isInfPattern v = true) : magnitudeOperand fmt v = .inf false := by
  have hv := ofBits32_of_inf (v := packMagnitude v) (by rwa [isInfPattern_packMagnitude])
  have hsign : signField (packMagnitude v) = false := by
    have hneg := isNegativePattern_packMagnitude v
    rw [← strictlyNegative_eq, strictlyNegative, hv] at hneg
    exact hneg
  rw [hsign] at hv
  cases fmt with
  | binary32 => exact hv
  | binary64 => rw [magnitudeOperand, packOperand, hv]; rfl

theorem magnitudeOperand_of_zero (h : isZeroPattern v = true) :
    ∃ neg, magnitudeOperand fmt v = .fin neg 0 (fpQmin (formatOf fmt)) := by
  have hv := ofBits32_of_zero (v := packMagnitude v) (by rwa [isZeroPattern_packMagnitude])
  cases fmt with
  | binary32 => exact ⟨_, hv⟩
  | binary64 => exact ⟨_, by rw [magnitudeOperand, packOperand, hv]; rfl⟩

/-- A component that is neither a NaN nor an infinity nor a zero becomes a positive finite operand. -/
theorem magnitudeOperand_of_positive (hnan : isNaNPattern v = false) (hinf : isInfPattern v = false)
    (hzero : isZeroPattern v = false) :
    NonnegFinite (formatOf fmt) (magnitudeOperand fmt v) ∧ (2 : ℚ) ^ (-149 : Int) ≤ fpValue (magnitudeOperand fmt v) := by
  obtain ⟨hfin, hlow⟩ := ofBits32_of_positive (isNegativePattern_packMagnitude v) (by rwa [isNaNPattern_packMagnitude])
    (by rwa [isInfPattern_packMagnitude]) (by rwa [isZeroPattern_packMagnitude])
  obtain ⟨hcan, hfin', hval⟩ := packOperand_of_finite fmt hfin
  rw [← hval] at hlow
  exact ⟨⟨hcan, hfin', (zpow_pos two_pos _).le.trans hlow⟩, hlow⟩

/-- A component that is no NaN becomes an operand that is not negative. -/
theorem magnitudeOperand_nonneg (hnan : isNaNPattern v = false) : Nonneg (formatOf fmt) (magnitudeOperand fmt v) := by
  cases hinf : isInfPattern v with
  | true => exact .inl (magnitudeOperand_of_inf fmt hinf)
  | false =>
    cases hzero : isZeroPattern v with
    | true =>
      obtain ⟨neg, hv⟩ := magnitudeOperand_of_zero fmt hzero
      exact .inr (hv ▸ nonnegFinite_zero _ neg)
    | false => exact .inr (magnitudeOperand_of_positive fmt hnan hinf hzero).1

/-- A finite operand is zero if the component is a zero, and at least 2^-149 otherwise. -/
theorem magnitudeOperand_zero_or_ge (hnan : isNaNPattern v = false) (hfin : fpIsFinite (magnitudeOperand fmt v) = true) :
    (isZeroPattern v = true ∧ fpValue (magnitudeOperand fmt v) = 0) ∨
      (isZeroPattern v = false ∧ (2 : ℚ) ^ (-149 : Int) ≤ fpValue (magnitudeOperand fmt v)) := by
  cases hzero : isZeroPattern v with
  | true =>
    obtain ⟨neg, hv⟩ := magnitudeOperand_of_zero fmt hzero
    exact .inl ⟨rfl, by rw [hv, fpValue_fin_zero]⟩
  | false =>
    have hinf : isInfPattern v = false := Bool.eq_false_iff.2 fun h => by
      rw [magnitudeOperand_of_inf fmt h] at hfin; cases hfin
    exact .inr ⟨rfl, (magnitudeOperand_of_positive fmt hnan hinf hzero).2⟩

end

/-! ## The sum (41_encoder.md R112) -/

section
variable {fmt : ArithFormat} {x y z : F32}

theorem sumOf_nonneg (hn : NoNaN x y z) : Nonneg (formatOf fmt) (sumOf fmt x y z) := by
  obtain ⟨hx, hy, hz⟩ := hn
  have hF := formatOf_fracBits_pos fmt
  exact ((magnitudeOperand_nonneg fmt hx).fpAdd hF (magnitudeOperand_nonneg fmt hy)).fpAdd hF (magnitudeOperand_nonneg fmt hz)

/-- The operands of a finite sum are finite and not above it. -/
structure BelowSum (fmt : ArithFormat) (x y z v : F32) : Prop where
  operand : NonnegFinite (formatOf fmt) (magnitudeOperand fmt v)
  le : fpValue (magnitudeOperand fmt v) ≤ fpValue (sumOf fmt x y z)

theorem belowSum_of_finite (hn : NoNaN x y z) (hfin : fpIsFinite (sumOf fmt x y z) = true) :
    BelowSum fmt x y z x ∧ BelowSum fmt x y z y ∧ BelowSum fmt x y z z := by
  obtain ⟨hx, hy, hz⟩ := hn
  have hF := formatOf_fracBits_pos fmt
  have hx' := magnitudeOperand_nonneg fmt hx
  have hy' := magnitudeOperand_nonneg fmt hy
  obtain ⟨hxy, hzf, hle, hzle⟩ := (hx'.fpAdd hF hy').le_fpAdd hF (magnitudeOperand_nonneg fmt hz) hfin
  obtain ⟨hxf, hyf, hxle, hyle⟩ := hx'.le_fpAdd hF hy' hxy.finite
  exact ⟨⟨hxf, hxle.trans hle⟩, ⟨hyf, hyle.trans hle⟩, ⟨hzf, hzle⟩⟩

/-- A NaN component makes the sum a NaN (00_scope.md R9). -/
theorem sumOf_of_nan (h : ¬ NoNaN x y z) : sumOf fmt x y z = .nan := by
  have hcases : isNaNPattern x = true ∨ isNaNPattern y = true ∨ isNaNPattern z = true := by
    simp only [NoNaN, ← Bool.not_eq_true] at h
    tauto
  rw [sumOf_eq]
  rcases hcases with hx | hy | hz
  · rw [magnitudeOperand_of_nan fmt hx]; rfl
  · rw [magnitudeOperand_of_nan fmt hy, fpAdd_nan_right]; rfl
  · rw [magnitudeOperand_of_nan fmt hz, fpAdd_nan_right]

end

/-- Settles O30: +inf absorbs what is not negative, in the first addition or in the second. -/
theorem anInfiniteComponentMakesTheSumInfinite : Obligations.AnInfiniteComponentMakesTheSumInfinite := by
  rintro fmt x y z ⟨hx, hy, hz⟩ hinf
  have hx' := magnitudeOperand_nonneg fmt hx
  have hy' := magnitudeOperand_nonneg fmt hy
  have hz' := magnitudeOperand_nonneg fmt hz
  have hxy := hx'.fpAdd (formatOf_fracBits_pos fmt) hy'
  rcases hinf with h | h | h
  · exact fpAdd_eq_inf hxy hz' (.inl (fpAdd_eq_inf hx' hy' (.inl (magnitudeOperand_of_inf fmt h))))
  · exact fpAdd_eq_inf hxy hz' (.inl (fpAdd_eq_inf hx' hy' (.inr (magnitudeOperand_of_inf fmt h))))
  · exact fpAdd_eq_inf hxy hz' (.inr (magnitudeOperand_of_inf fmt h))

end Sys2Proof.Machine
end

section
/-! SUPPORT. The projections, and the settled statements about degenerate operands, about the worked examples, and about what PACK
ignores (41_encoder.md R113, R118, R119). -/

namespace Sys2Proof.Machine

/-! ## The weight and the projections (41_encoder.md R112, R113) -/

/-- The weight w, for the operands of a command. -/
def weightOf (fmt : ArithFormat) (x y z : F32) : Fp :=
  fpDiv (formatOf fmt) (fpOfInt (formatOf fmt) wScale) (sumOf fmt x y z)

theorem packWeight_packSigns (fmt : ArithFormat) (x y z : F32) :
    packWeight fmt (packSigns x y z).v = weightOf fmt x y z := rfl

/-- A component's product with a weight, converted. -/
def projectWith (fmt : ArithFormat) (w : Fp) (v : F32) : BitVec 16 :=
  satU16 (fpMul (formatOf fmt) (magnitudeOperand fmt v) w)

theorem projectionsOf_eq (fmt : ArithFormat) (x y z : F32) :
    projectionsOf fmt x y z =
      { xi := projectWith fmt (weightOf fmt x y z) x, yi := projectWith fmt (weightOf fmt x y z) y } := rfl

theorem satU16_zero (neg : Bool) (e : Int) : satU16 (.fin neg 0 e) = 0#16 := by
  cases neg <;> simp [satU16, truncMag]

/-- Zero times any value is a zero or a NaN. -/
theorem satU16_fpMul_zero_left (F : FpFormat) (neg : Bool) (e : Int) (w : Fp) :
    satU16 (fpMul F (.fin neg 0 e) w) = 0#16 := by
  cases w with
  | nan => rfl
  | inf nb => rfl
  | fin nb mb eb => rw [fpMul, zero_mul, fpRound_zero, satU16_zero]

theorem satU16_fpMul_zero_right (F : FpFormat) (neg : Bool) (e : Int) (v : Fp) :
    satU16 (fpMul F v (.fin neg 0 e)) = 0#16 := by
  cases v with
  | nan => rfl
  | inf na => rfl
  | fin na ma ea => rw [fpMul, mul_zero, fpRound_zero, satU16_zero]

theorem satU16_fpMul_nan_right (F : FpFormat) (v : Fp) : satU16 (fpMul F v .nan) = 0#16 := by
  cases v <;> rfl

/-- A zero component has the projection 0, whatever the weight (41_encoder.md R119). -/
theorem projectWith_of_zero (fmt : ArithFormat) (w : Fp) {v : F32} (h : isZeroPattern v = true) :
    projectWith fmt w v = 0#16 := by
  obtain ⟨neg, hv⟩ := magnitudeOperand_of_zero fmt h
  rw [projectWith, hv, satU16_fpMul_zero_left]

theorem fpDiv_nan_right (F : FpFormat) (v : Fp) : fpDiv F v .nan = .nan := by cases v <;> rfl

/-- A finite value divided by an infinity is a zero. -/
theorem fpDiv_inf_right (F : FpFormat) {v : Fp} (hv : fpIsFinite v = true) (neg : Bool) :
    ∃ n, fpDiv F v (.inf neg) = .fin n 0 (fpQmin F) := by
  obtain ⟨na, ma, ea, rfl⟩ := eq_fin_of_fpIsFinite hv
  exact ⟨_, rfl⟩

/-- The numerator of the weight is exact. -/
theorem wScale_exact (fmt : ArithFormat) : InRange (formatOf fmt) 126 126 (fpOfInt (formatOf fmt) wScale) :=
  fpOfInt_natCast_exact fmt (n := 126) (by norm_num)

/-! ## Degenerate sums (41_encoder.md R118) -/

section
variable {fmt : ArithFormat} {x y z : F32}

/-- With a NaN component or an infinite sum both projections are 0: the weight is a NaN or a zero. -/
theorem projectionsOf_of_degenerate (h : ¬ NoNaN x y z ∨ sumOf fmt x y z = .inf false) :
    projectionsOf fmt x y z = { xi := 0#16, yi := 0#16 } := by
  rw [projectionsOf_eq]
  rcases h with hnan | hinf
  · have hw : weightOf fmt x y z = .nan := by rw [weightOf, sumOf_of_nan hnan, fpDiv_nan_right]
    simp only [hw, projectWith, satU16_fpMul_nan_right]
  · obtain ⟨n, hw⟩ := fpDiv_inf_right (formatOf fmt) (wScale_exact fmt).finite false
    rw [← hinf] at hw
    simp only [weightOf, hw, projectWith, satU16_fpMul_zero_right]

/-- With every component zero both projections are 0. -/
theorem projectionsOf_of_zero (hx : isZeroPattern x = true) (hy : isZeroPattern y = true) :
    projectionsOf fmt x y z = { xi := 0#16, yi := 0#16 } := by
  rw [projectionsOf_eq, projectWith_of_zero fmt _ hx, projectWith_of_zero fmt _ hy]

end

/-- Without projections the code is the sign flags. -/
theorem packCode_of_zero_projections {params : Params} {x y z : F32}
    (h : projectionsOf params.packFormat x y z = { xi := 0#16, yi := 0#16 }) :
    packCode params x y z = signsByBits x y z := by
  rw [packCode_eq, h, show packFold { xi := 0#16, yi := 0#16 } = { xi := 0#16, yi := 0#16 } by decide]
  cases params.satPolicy <;> simp [packCompose]

theorem packCode_of_degenerate {params : Params} {x y z : F32}
    (h : ¬ NoNaN x y z ∨ sumOf params.packFormat x y z = .inf false) : packCode params x y z = signsByBits x y z :=
  packCode_of_zero_projections (projectionsOf_of_degenerate h)

theorem signsByBits_of_zero {x y z : F32} (hx : isZeroPattern x = true) (hy : isZeroPattern y = true)
    (hz : isZeroPattern z = true) : signsByBits x y z = 0#16 := by
  rw [signsByBits, isNegativePattern_eq_false_of_zero hx, isNegativePattern_eq_false_of_zero hy,
    isNegativePattern_eq_false_of_zero hz]
  rfl

theorem packCode_of_zero (params : Params) {x y z : F32} (hx : isZeroPattern x = true) (hy : isZeroPattern y = true)
    (hz : isZeroPattern z = true) : packCode params x y z = 0#16 := by
  rw [packCode_of_zero_projections (projectionsOf_of_zero hx hy), signsByBits_of_zero hx hy hz]

/-- Settles O29: both projections are 0 in all three rows of the table, and a zero sets no sign flag. -/
theorem degenerateInputsPackToTheirSigns : Obligations.DegenerateInputsPackToTheirSigns := by
  refine fun x y z s hs => ⟨fun h => ?_, fun hx hy hz => ?_⟩
  · rw [exec_pack hs, packCode_of_degenerate (h.imp_right And.right)]
  · rw [exec_pack hs, packCode_of_zero s.params hx hy hz]

/-! ## The worked examples (95_test_vectors.md section 0) -/

/-- PACK 1, 0, 0 in both formats: the product is 126 exactly. -/
theorem projectionsOf_one (fmt : ArithFormat) :
    projectionsOf fmt 0x3f800000#32 0#32 0#32 = { xi := 126#16, yi := 0#16 } := by
  cases fmt <;> decide +kernel

theorem packCode_one (params : Params) : packCode params 0x3f800000#32 0#32 0#32 = 255#16 := by
  rw [packCode_eq, projectionsOf_one]
  cases params.satPolicy <;> decide

/-- Settles O37: the first example is computed; the others are degenerate. -/
theorem packWorkedExamples : Obligations.PackWorkedExamples := by
  intro params
  have hinf (x y z : F32) (hn : NoNaN x y z) (hx : isInfPattern x = true) : packCode params x y z = signsByBits x y z :=
    packCode_of_degenerate (.inr (anInfiniteComponentMakesTheSumInfinite _ x y z hn (.inl hx)))
  refine ⟨packCode_one params, packCode_of_zero params (by decide) (by decide) (by decide), ?_, ?_, ?_, ?_⟩
  · exact hinf _ _ _ (by simp only [NoNaN]; decide) (by decide)
  · exact packCode_of_degenerate (.inl (by simp only [NoNaN]; decide))
  · exact hinf _ _ _ (by simp only [NoNaN]; decide) (by decide)
  · exact hinf _ _ _ (by simp only [NoNaN]; decide) (by decide)

/-! ## What PACK ignores (41_encoder.md R119) -/

/-- Two values that differ at most in the sign of a zero. -/
def SameButZeroSign (v v' : Fp) : Prop := v = v' ∨ ∃ n n' e, v = .fin n 0 e ∧ v' = .fin n' 0 e

theorem signedAt_zero (neg : Bool) (e q : Int) : signedAt neg 0 e q = 0 := by cases neg <;> simp [signedAt]

/-- Significands that are aligned alike add alike but for the sign of a zero sum. -/
theorem fpAdd_fin_congr (F : FpFormat) {n n' k k' : Bool} {m l : Nat} {e f : Int}
    (hm : ∀ q, signedAt n m e q = signedAt n' m e q) (hl : ∀ q, signedAt k l f q = signedAt k' l f q) :
    SameButZeroSign (fpAdd F (.fin n m e) (.fin k l f)) (fpAdd F (.fin n' m e) (.fin k' l f)) := by
  simp only [fpAdd, hm, hl]
  split
  · exact .inr ⟨_, _, _, rfl, rfl⟩
  · exact .inl rfl

/-- The sign of a zero summand shows at most in the sign of a zero sum. -/
theorem SameButZeroSign.fpAdd (F : FpFormat) {v v' w w' : Fp} (hv : SameButZeroSign v v') (hw : SameButZeroSign w w') :
    SameButZeroSign (fpAdd F v w) (fpAdd F v' w') := by
  have hzero (n n' : Bool) (e q : Int) : signedAt n 0 e q = signedAt n' 0 e q := by rw [signedAt_zero, signedAt_zero]
  rcases hv with rfl | ⟨n, n', e, rfl, rfl⟩ <;> rcases hw with rfl | ⟨k, k', f, rfl, rfl⟩
  · exact .inl rfl
  · cases v with
    | fin na m ea => exact fpAdd_fin_congr F (fun _ => rfl) (hzero k k' f)
    | nan => exact .inl rfl
    | inf na => exact .inl rfl
  · cases w with
    | fin nb l eb => exact fpAdd_fin_congr F (hzero n n' e) (fun _ => rfl)
    | nan => exact .inl rfl
    | inf nb => exact .inl rfl
  · exact fpAdd_fin_congr F (hzero n n' e) (hzero k k' f)

/-- Two components that differ at most in the sign of a zero or in the bits of a NaN. -/
def SameComponent (v v' : F32) : Prop :=
  v = v' ∨ (isZeroPattern v = true ∧ isZeroPattern v' = true) ∨ (isNaNPattern v = true ∧ isNaNPattern v' = true)

section
variable {v v' x y z x' y' z' : F32}

theorem SameComponent.isNegativePattern_eq (h : SameComponent v v') : isNegativePattern v = isNegativePattern v' := by
  rcases h with rfl | ⟨h, h'⟩ | ⟨h, h'⟩
  · rfl
  · rw [isNegativePattern_eq_false_of_zero h, isNegativePattern_eq_false_of_zero h']
  · rw [isNegativePattern_eq_false_of_nan h, isNegativePattern_eq_false_of_nan h']

theorem SameComponent.isZeroPattern_eq (h : SameComponent v v') : isZeroPattern v = isZeroPattern v' := by
  have hnan {b : F32} (hb : isNaNPattern b = true) : isZeroPattern b = false := by
    simp only [isNaNPattern, isZeroPattern, decide_eq_true_eq, decide_eq_false_iff_not] at hb ⊢
    omega
  rcases h with rfl | ⟨h, h'⟩ | ⟨h, h'⟩
  · rfl
  · rw [h, h']
  · rw [hnan h, hnan h']

theorem SameComponent.magnitudeOperand (fmt : ArithFormat) (h : SameComponent v v') :
    SameButZeroSign (magnitudeOperand fmt v) (magnitudeOperand fmt v') := by
  rcases h with rfl | ⟨h, h'⟩ | ⟨h, h'⟩
  · exact .inl rfl
  · obtain ⟨n, hv⟩ := magnitudeOperand_of_zero fmt h
    obtain ⟨n', hv'⟩ := magnitudeOperand_of_zero fmt h'
    exact .inr ⟨n, n', _, hv, hv'⟩
  · exact .inl (by rw [magnitudeOperand_of_nan fmt h, magnitudeOperand_of_nan fmt h'])

/-- Under one weight such components have one projection. -/
theorem SameComponent.projectWith_eq (fmt : ArithFormat) (w : Fp) (h : SameComponent v v') :
    projectWith fmt w v = projectWith fmt w v' := by
  rcases h.magnitudeOperand fmt with heq | ⟨n, n', e, hv, hv'⟩
  · rw [projectWith, projectWith, heq]
  · rw [projectWith, projectWith, hv, hv', satU16_fpMul_zero_left, satU16_fpMul_zero_left]

/-- A sum below 2^-149 has zero components only: a component that is not zero is at least that, and the sum is no less. -/
theorem isZeroPattern_of_sumOf_lt {fmt : ArithFormat} (hn : NoNaN x y z) (hfin : fpIsFinite (sumOf fmt x y z) = true)
    (hlt : fpValue (sumOf fmt x y z) < 2 ^ (-149 : Int)) :
    isZeroPattern x = true ∧ isZeroPattern y = true ∧ isZeroPattern z = true := by
  have hzero {v : F32} (hnan : isNaNPattern v = false) (hb : BelowSum fmt x y z v) : isZeroPattern v = true := by
    rcases magnitudeOperand_zero_or_ge fmt hnan hb.operand.finite with ⟨hz, -⟩ | ⟨-, hge⟩
    · exact hz
    · exact absurd (hge.trans hb.le) (not_le.2 hlt)
  obtain ⟨hbx, hby, hbz⟩ := belowSum_of_finite hn hfin
  obtain ⟨hx, hy, hz⟩ := hn
  exact ⟨hzero hx hbx, hzero hy hby, hzero hz hbz⟩

theorem packCode_eq_of_sameComponent (params : Params) (hx : SameComponent x x') (hy : SameComponent y y')
    (hz : SameComponent z z') : packCode params x y z = packCode params x' y' z' := by
  have hsum : SameButZeroSign (sumOf params.packFormat x y z) (sumOf params.packFormat x' y' z') :=
    ((hx.magnitudeOperand _).fpAdd _ (hy.magnitudeOperand _)).fpAdd _ (hz.magnitudeOperand _)
  rcases hsum with heq | ⟨n, n', e, h, -⟩
  · have hw : weightOf params.packFormat x y z = weightOf params.packFormat x' y' z' := by rw [weightOf, weightOf, heq]
    rw [packCode_eq, packCode_eq, projectionsOf_eq, projectionsOf_eq, hw, hx.projectWith_eq, hy.projectWith_eq]
    simp only [signsByBits, hx.isNegativePattern_eq, hy.isNegativePattern_eq, hz.isNegativePattern_eq]
  · -- a zero sum: every component is a zero, on both sides
    have hn : NoNaN x y z := by_contra fun hnan => by rw [sumOf_of_nan hnan] at h; cases h
    obtain ⟨hx0, hy0, hz0⟩ := isZeroPattern_of_sumOf_lt hn (by rw [h]; rfl)
      (by rw [h, fpValue_fin_zero]; exact zpow_pos two_pos _)
    rw [packCode_of_zero params hx0 hy0 hz0, packCode_of_zero params (hx.isZeroPattern_eq ▸ hx0)
      (hy.isZeroPattern_eq ▸ hy0) (hz.isZeroPattern_eq ▸ hz0)]

end

/-- Settles O31: the sums differ at most in the sign of a zero, and then every component is a zero; otherwise the weights are one,
and each projection and sign flag. -/
theorem packIgnoresZeroSignsAndNaNBits : Obligations.PackIgnoresZeroSignsAndNaNBits := by
  intro x y z x' y' z' s hx hy hz
  simp only [exec, execPack, packCode_eq_of_sameComponent s.params hx hy hz]

end Sys2Proof.Machine
end

section
/-! SUPPORT. S_MIN and the saturated path, with the settled statements about them (41_encoder.md R117). -/

namespace Sys2Proof.Machine

/-! ## The weight of a positive finite sum -/

/-- The weight of a positive finite sum is its quotient, rounded. -/
theorem weight_roundsTo (fmt : ArithFormat) {v : Fp} (hc : fpCanonical (formatOf fmt) v = true) (hv : PositiveFinite v) :
    RoundsTo (formatOf fmt) (126 / fpValue v) (fpDiv (formatOf fmt) (fpOfInt (formatOf fmt) wScale) v) := by
  have hnum := wScale_exact fmt
  have h := divisionIsCorrectlyRounded fmt _ v hnum.canonical hc hnum.finite hv.1 hv.2.ne'
  rwa [le_antisymm hnum.le hnum.ge] at h

/-- A positive number rounds to +inf exactly from the overflow bound on. -/
theorem RoundsTo.eq_inf_iff {F : FpFormat} {x : ℚ} {r : Fp} (h : RoundsTo F x r) (hx : 0 < x) :
    r = .inf false ↔ overflowBound F ≤ x := by
  cases r with
  | nan => exact h.elim
  | inf neg =>
    obtain ⟨hover, hsign⟩ := h
    rw [abs_of_pos hx] at hover
    refine iff_of_true ?_ hover
    rw [Fp.inf.injEq, ← Bool.not_eq_true, hsign]
    exact not_lt.2 hx.le
  | fin neg m e =>
    obtain ⟨-, hlt, -, -⟩ := h
    rw [abs_of_pos hx] at hlt
    exact iff_of_false nofun (not_le.2 hlt)

/-! ## S_MIN -/

theorem fpValue_sMin : fpValue sMin = 16515073 * 2 ^ (-145 : Int) := by rw [sMin_eq, fpValue_fin_false]; norm_num

/-- The pattern before S_MIN's is that of `126 · 2^-128`. -/
theorem fpValue_beforeSMin : fpValue (ofBits32 0x02fc0000#32) = 126 * 2 ^ (-128 : Int) := by
  rw [show ofBits32 0x02fc0000#32 = .fin false 16515072 (-145) by decide, fpValue_fin_false]
  norm_num

/-- No value lies between S_MIN and the value before it: patterns are ordered as their values. -/
theorem lt_sMin_iff {v : Fp} (hc : fpCanonical binary32 v = true) (hv : PositiveFinite v) :
    fpValue v < fpValue sMin ↔ fpValue v ≤ 126 * 2 ^ (-128 : Int) := by
  constructor
  · intro hlt
    by_contra hgt
    rw [not_le, ← fpValue_beforeSMin] at hgt
    obtain ⟨b, rfl⟩ : ∃ b, v = ofBits32 b := ⟨toBits32 0#32 v, (ofBits32_toBits32 _ hc).symm⟩
    have hlo := toNat_le_toNat_of_fpValue_le (by rw [fpValue_beforeSMin]; norm_num) hgt.le
    have hhi := toNat_le_toNat_of_fpValue_le hv.2 hlt.le
    have hcases : b = 0x02fc0000#32 ∨ b = 0x02fc0001#32 := by bv_omega
    rcases hcases with rfl | rfl
    · exact lt_irrefl _ hgt
    · exact lt_irrefl _ hlt
  · intro hle
    rw [fpValue_sMin]
    exact hle.trans_lt (by norm_num)

theorem overflowBound_binary32 : overflowBound binary32 = ((2 : ℚ) ^ 24 - 1 / 2) * 2 ^ (104 : Int) := by
  rw [overflowBound, fpPrec_binary32, fpQmax_binary32]

/-- The overflow bound is between the quotients of S_MIN and of the value before it. -/
theorem overflowBound_le_weight_iff {v : Fp} (hc : fpCanonical binary32 v = true) (hv : PositiveFinite v) :
    overflowBound binary32 ≤ 126 / fpValue v ↔ fpValue v < fpValue sMin := by
  rw [le_div_iff₀ hv.2, overflowBound_binary32]
  constructor
  · intro h
    by_contra hge
    rw [not_lt, fpValue_sMin] at hge
    norm_num at h hge
    linarith
  · intro h
    have hle := (lt_sMin_iff hc hv).1 h
    norm_num at hle ⊢
    linarith

/-- Settles O32: the quotient is rounded correctly, and overflows from the bound on. -/
theorem sMinIsTheLeastSumWithAFiniteWeight : Obligations.SMinIsTheLeastSumWithAFiniteWeight := by
  intro v hc hv
  rw [← overflowBound_le_weight_iff hc hv]
  exact (weight_roundsTo .binary32 hc hv).eq_inf_iff (div_pos (by norm_num) hv.2)

/-! ## The saturated path -/

/-- A positive finite operand times +inf saturates. -/
theorem satU16_fpMul_inf (F : FpFormat) {v : Fp} (h : 0 < fpValue v) : satU16 (fpMul F v (.inf false)) = 65535#16 := by
  obtain ⟨m, e, rfl⟩ := eq_fin_false_of_fpValue_pos h
  have hm : m ≠ 0 := fun h0 => h.ne' (by rw [h0, fpValue_fin_zero])
  rw [fpMul, if_neg hm]
  rfl

section
variable {fmt : ArithFormat} {x y z : F32}

theorem sumOf_canonical (fmt : ArithFormat) (x y z : F32) : fpCanonical (formatOf fmt) (sumOf fmt x y z) = true :=
  fpAdd_canonical ..

theorem weightOf_of_saturated (h : SaturatedPath fmt x y z) : weightOf fmt x y z = .inf false := by
  obtain ⟨rfl, -, hpos, hlt⟩ := h
  exact (sMinIsTheLeastSumWithAFiniteWeight _ (sumOf_canonical .binary32 x y z) hpos).2 hlt

/-- Under an infinite weight a component of a finite sum projects to 0 or saturates. -/
theorem projectWith_inf {v : F32} (hnan : isNaNPattern v = false) (hb : BelowSum fmt x y z v) :
    projectWith fmt (.inf false) v = if isZeroPattern v then 0#16 else 65535#16 := by
  rcases magnitudeOperand_zero_or_ge fmt hnan hb.operand.finite with ⟨hzero, -⟩ | ⟨hzero, hge⟩
  · rw [projectWith_of_zero fmt _ hzero, hzero]; rfl
  · rw [projectWith, satU16_fpMul_inf _ ((zpow_pos two_pos _).trans_le hge), hzero]; rfl

theorem projectionsOf_of_saturated (h : SaturatedPath fmt x y z) :
    projectionsOf fmt x y z =
      { xi := if isZeroPattern x then 0#16 else 65535#16, yi := if isZeroPattern y then 0#16 else 65535#16 } := by
  have hw := weightOf_of_saturated h
  obtain ⟨-, hn, hpos, -⟩ := h
  obtain ⟨hbx, hby, -⟩ := belowSum_of_finite hn hpos.1
  obtain ⟨hx, hy, -⟩ := hn
  rw [projectionsOf_eq, hw, projectWith_inf hx hbx, projectWith_inf hy hby]

end

/-- The fold of saturated projections: 127 - 65535 is 128 modulo 2^16. -/
theorem packFold_saturated :
    packFold { xi := 65535#16, yi := 65535#16 } = { xi := 128#16, yi := 128#16 } ∧
    packFold { xi := 65535#16, yi := 0#16 } = { xi := 128#16, yi := 127#16 } ∧
    packFold { xi := 0#16, yi := 65535#16 } = { xi := 0#16, yi := 65535#16 } ∧
    packFold { xi := 0#16, yi := 0#16 } = { xi := 0#16, yi := 0#16 } := by decide

/-- What the composition adds to the sign flags; under wrap16 it can reach beyond the magnitude bits. -/
def magnitudeBits (policy : SatPolicy) (p : Proj) : Code := packCompose policy 0#16 p

theorem packCompose_eq_or (policy : SatPolicy) (signs : Code) (p : Proj) :
    packCompose policy signs p = signs ||| magnitudeBits policy p := by
  cases policy <;> simp [magnitudeBits, packCompose, BitVec.or_assoc]

/-- Settles O33: the projections saturate or are 0, the fold wraps, and the composition is computed in each cell of the table. -/
theorem saturatedPathCodes : Obligations.SaturatedPathCodes := by
  intro x y z s hs h
  obtain ⟨hxy, hx, hy, h0⟩ := packFold_saturated
  have hones (c : Code) : c ||| 65535#16 = 65535#16 := BitVec.or_allOnes
  rw [exec_pack hs, packCode_eq, projectionsOf_of_saturated h, packCompose_eq_or]
  cases s.params.satPolicy <;> cases isZeroPattern x <;> cases isZeroPattern y <;>
    simp [hxy, hx, hy, h0, hones, magnitudeBits, packCompose]

end Sys2Proof.Machine
end

section
/-! SUPPORT. The ordinary case: how far the rounded sum, weight and products are from the exact ones (41_encoder.md R122). -/

namespace Sys2Proof.Machine

/-! ## The relative error of a rounding (00_scope.md R9) -/

section
variable {F : FpFormat} {x a : ℚ} {r : Fp}

theorem overflowBound_lt (F : FpFormat) : overflowBound F < 2 ^ ((fpPrec F : Int) + fpQmax F) := by
  rw [overflowBound, zpow_add₀ two_ne_zero, zpow_natCast]
  exact mul_lt_mul_of_pos_right (by linarith) (zpow_pos two_pos _)

/-- Above the subnormals, a representable number lies within `2^-fracBits` below any number: its digits, cut off. -/
theorem exists_representable_le (hlo : 2 ^ (fpQmin F + F.fracBits) ≤ x) (hhi : x < overflowBound F) :
    ∃ a, Representable F a ∧ a ≤ x ∧ x - a ≤ x / 2 ^ F.fracBits := by
  have hx : 0 < x := (zpow_pos two_pos _).trans_le hlo
  -- the last place of `x`
  obtain ⟨q, hq⟩ : ∃ q : Int, Int.log 2 x = q + F.fracBits := ⟨Int.log 2 x - F.fracBits, by ring⟩
  have hlog : (2 : ℚ) ^ (q + F.fracBits) ≤ x := hq ▸ Int.zpow_log_le_self one_lt_two hx
  have hlog' : x < 2 ^ (q + F.fracBits + 1) := hq ▸ Int.lt_zpow_succ_log_self one_lt_two x
  have hmin : fpQmin F ≤ q := by
    have := (zpow_lt_zpow_iff_right₀ one_lt_two).1 (hlo.trans_lt hlog')
    omega
  have hmax : q ≤ fpQmax F := by
    have := (zpow_lt_zpow_iff_right₀ one_lt_two).1 (hlog.trans_lt (hhi.trans (overflowBound_lt F)))
    rw [fpPrec] at this
    omega
  have hunit : (0 : ℚ) < 2 ^ q := zpow_pos two_pos q
  have hfloor : (⌊x / 2 ^ q⌋₊ : ℚ) ≤ x / 2 ^ q := Nat.floor_le (by positivity)
  have hfloor' : x / 2 ^ q < ⌊x / 2 ^ q⌋₊ + 1 := Nat.lt_floor_add_one _
  rw [le_div_iff₀ hunit] at hfloor
  rw [div_lt_iff₀ hunit] at hfloor'
  have hsig : ⌊x / 2 ^ q⌋₊ < 2 ^ fpPrec F := by
    rw [Nat.floor_lt (by positivity), div_lt_iff₀ hunit]
    refine hlog'.trans_eq ?_
    rw [fpPrec, add_assoc, zpow_add₀ two_ne_zero, mul_comm, Nat.cast_pow, ← zpow_natCast]
    norm_cast
  refine ⟨⌊x / 2 ^ q⌋₊ * 2 ^ q, ?_, hfloor, ?_⟩
  · have h := exists_canonical false hsig hmin hmax
    rwa [fpValue_fin_false] at h
  · rw [zpow_add₀ two_ne_zero, zpow_natCast] at hlog
    rw [le_div_iff₀ (by positivity)]
    refine le_trans (mul_le_mul_of_nonneg_right ?_ (by positivity)) hlog
    linarith

/-- A finite rounded value is as near as a representable number just below the exact one. -/
theorem RoundsTo.relative_error (h : RoundsTo F x r) (hr : fpIsFinite r = true) (hlo : 2 ^ (fpQmin F + F.fracBits) ≤ x) :
    |x - fpValue r| ≤ x / 2 ^ F.fracBits := by
  obtain ⟨neg, m, e, rfl⟩ := eq_fin_of_fpIsFinite hr
  obtain ⟨-, hover, -, hnear⟩ := h
  have hx : 0 < x := (zpow_pos two_pos _).trans_le hlo
  rw [abs_of_pos hx] at hover
  obtain ⟨a, ⟨v, hv, hf, rfl⟩, hle, herr⟩ := exists_representable_le hlo hover
  refine (hnear v hv hf).1.trans ?_
  rwa [abs_of_nonneg (sub_nonneg.2 hle)]

/-- A finite rounded value is not above a representable number that the exact one is not above. -/
theorem RoundsTo.le_of_representable (h : RoundsTo F x r) (hr : fpIsFinite r = true) (ha : Representable F a) (hxa : x ≤ a) :
    fpValue r ≤ a := by
  obtain ⟨neg, m, e, rfl⟩ := eq_fin_of_fpIsFinite hr
  obtain ⟨-, -, -, hnear⟩ := h
  obtain ⟨v, hv, hf, rfl⟩ := ha
  have hle := (hnear v hv hf).1
  rw [abs_sub_comm x (fpValue v), abs_of_nonneg (sub_nonneg.2 hxa)] at hle
  linarith [neg_le_abs (x - fpValue (.fin neg m e))]

end

/-- In both formats a relative error is below 1/512. -/
theorem div_two_pow_fracBits_le (fmt : ArithFormat) {x : ℚ} (hx : 0 ≤ x) : x / 2 ^ (formatOf fmt).fracBits ≤ x / 512 := by
  refine div_le_div_of_nonneg_left hx (by norm_num) ?_
  cases fmt with
  | binary32 => norm_num [formatOf, binary32]
  | binary64 => norm_num [formatOf, binary64]

/-! ## The error of an addition: none among the subnormals -/

section
variable {F : FpFormat} {v w : Fp}

/-- A value of the format is a whole number of units of the least exponent. -/
theorem NonnegFinite.exists_units (h : NonnegFinite F v) : ∃ n : Nat, fpValue v = n * 2 ^ fpQmin F := by
  obtain ⟨neg, m, e, rfl⟩ := eq_fin_of_fpIsFinite h.finite
  have hcan := h.canonical
  simp only [fpCanonical, decide_eq_true_eq] at hcan
  obtain ⟨-, hmin, -, -⟩ := hcan
  by_cases hm : m = 0
  · exact ⟨0, by rw [hm, fpValue_fin_zero]; simp⟩
  · have hpos : 0 < fpValue (.fin neg m e) := lt_of_le_of_ne h.nonneg fun h0 => hm ((fpValue_fin_eq_zero_iff _ _ _).1 h0.symm)
    obtain ⟨m', e', heq⟩ := eq_fin_false_of_fpValue_pos hpos
    cases heq
    exact ⟨_, by rw [fpValue_fin_false, natCast_mul_two_pow_toNat m hmin]⟩

theorem NonnegFinite.representable_add (hv : NonnegFinite F v) (hw : NonnegFinite F w)
    (h : fpValue v + fpValue w < 2 ^ (fpQmin F + F.fracBits)) : Representable F (fpValue v + fpValue w) := by
  obtain ⟨n, hn⟩ := hv.exists_units
  obtain ⟨k, hk⟩ := hw.exists_units
  have hsum : fpValue v + fpValue w = (n + k : Nat) * 2 ^ fpQmin F := by rw [hn, hk]; push_cast; ring
  rw [hsum, add_comm (fpQmin F), zpow_add₀ two_ne_zero, mul_lt_mul_iff_left₀ (zpow_pos two_pos _), zpow_natCast] at h
  have hsig : n + k < 2 ^ fpPrec F :=
    lt_of_lt_of_le (by exact_mod_cast h) (Nat.pow_le_pow_right two_pos (Nat.le_succ F.fracBits))
  have hcan := exists_canonical false hsig le_rfl (fpQmin_le_fpQmax F)
  rwa [fpValue_fin_false, ← hsum] at hcan

/-- A finite sum is within the relative error of the exact one. -/
theorem NonnegFinite.fpAdd_error (hF : 0 < F.fracBits) (hv : NonnegFinite F v) (hw : NonnegFinite F w)
    (hfin : fpIsFinite (fpAdd F v w) = true) :
    |fpValue v + fpValue w - fpValue (fpAdd F v w)| ≤ (fpValue v + fpValue w) / 2 ^ F.fracBits := by
  have hround := hv.fpAdd_roundsTo hF hw
  have hnn := add_nonneg hv.nonneg hw.nonneg
  rcases lt_or_ge (fpValue v + fpValue w) (2 ^ (fpQmin F + F.fracBits)) with hlt | hge
  · obtain ⟨u, hu, huf, hval⟩ := hv.representable_add hw hlt
    rw [← hval] at hround hnn ⊢
    rw [(hround.exact hu huf).2, sub_self, abs_zero]
    positivity
  · exact hround.relative_error hfin hge

end

/-! ## The sum and the weight in the ordinary case -/

section
variable {fmt : ArithFormat} {x y z : F32}

/-- The sum of the first two operands is hardly above the rounded sum of the three. -/
theorem add_operands_le_sumOf (hn : NoNaN x y z) (hfin : fpIsFinite (sumOf fmt x y z) = true) :
    fpValue (magnitudeOperand fmt x) + fpValue (magnitudeOperand fmt y) ≤ 512 / 511 * fpValue (sumOf fmt x y z) := by
  obtain ⟨hx, hy, hz⟩ := hn
  have hF := formatOf_fracBits_pos fmt
  have hx' := magnitudeOperand_nonneg fmt hx
  have hy' := magnitudeOperand_nonneg fmt hy
  obtain ⟨hxy, -, hle, -⟩ := (hx'.fpAdd hF hy').le_fpAdd hF (magnitudeOperand_nonneg fmt hz) hfin
  obtain ⟨hxf, hyf, -, -⟩ := hx'.le_fpAdd hF hy' hxy.finite
  have herr := (hxf.fpAdd_error hF hyf hxy.finite).trans
    (div_two_pow_fracBits_le fmt (add_nonneg hxf.nonneg hyf.nonneg))
  rw [← sumOf_eq] at hle
  linarith [(abs_le.1 herr).2]

theorem fpAdd_zero_zero (F : FpFormat) (n n' : Bool) (e : Int) :
    fpAdd F (.fin n 0 e) (.fin n' 0 e) = .fin (n && n') 0 (fpQmin F) := by
  simp [fpAdd, signedAt_zero]

/-- Zero components have a zero sum. -/
theorem fpValue_sumOf_of_zero (hx : isZeroPattern x = true) (hy : isZeroPattern y = true) (hz : isZeroPattern z = true) :
    fpValue (sumOf fmt x y z) = 0 := by
  obtain ⟨nx, hx'⟩ := magnitudeOperand_of_zero fmt hx
  obtain ⟨ny, hy'⟩ := magnitudeOperand_of_zero fmt hy
  obtain ⟨nz, hz'⟩ := magnitudeOperand_of_zero fmt hz
  rw [sumOf_eq, hx', hy', hz', fpAdd_zero_zero, fpAdd_zero_zero, fpValue_fin_zero]

/-- A positive sum is at least 2^-149. -/
theorem two_zpow_le_sumOf (hn : NoNaN x y z) (hpos : PositiveFinite (sumOf fmt x y z)) :
    (2 : ℚ) ^ (-149 : Int) ≤ fpValue (sumOf fmt x y z) := by
  by_contra hlt
  obtain ⟨hx, hy, hz⟩ := isZeroPattern_of_sumOf_lt hn hpos.1 (not_le.1 hlt)
  exact hpos.2.ne' (fpValue_sumOf_of_zero hx hy hz)

/-- In the ordinary case the quotient does not overflow. -/
theorem weight_lt_overflowBound (h : OrdinaryCase fmt x y z) :
    126 / fpValue (sumOf fmt x y z) < overflowBound (formatOf fmt) := by
  obtain ⟨hn, hpos, hmin⟩ := h
  cases fmt with
  | binary32 =>
    rw [← not_le]
    exact fun hover => not_lt.2 (hmin rfl) ((overflowBound_le_weight_iff (sumOf_canonical .binary32 x y z) hpos).1 hover)
  | binary64 =>
    have hge := two_zpow_le_sumOf hn hpos
    have hbound : (126 : ℚ) < overflowBound binary64 * 2 ^ (-149 : Int) := by
      have hpow : (1 : ℚ) ≤ 2 ^ (971 : Int) * 2 ^ (-149 : Int) := by
        rw [← zpow_add₀ two_ne_zero]
        exact one_le_zpow₀ one_le_two (by norm_num)
      rw [overflowBound, show fpPrec binary64 = 53 by decide, show fpQmax binary64 = 971 by decide, mul_assoc]
      exact lt_of_lt_of_le (by norm_num) (le_mul_of_one_le_right (by norm_num) hpow)
    rw [div_lt_iff₀ hpos.2]
    exact hbound.trans_le (mul_le_mul_of_nonneg_left hge (overflowBound_pos _).le)

/-- The quotient of 126 and a finite sum is above the subnormals. -/
theorem two_zpow_le_weight (hpos : PositiveFinite (sumOf fmt x y z)) :
    2 ^ (fpQmin (formatOf fmt) + (formatOf fmt).fracBits) ≤ 126 / fpValue (sumOf fmt x y z) := by
  have hlt := abs_fpValue_lt_overflowBound (sumOf_canonical fmt x y z) hpos.1
  rw [abs_of_pos hpos.2] at hlt
  have hrange : fpQmin (formatOf fmt) + (formatOf fmt).fracBits + (fpPrec (formatOf fmt) + fpQmax (formatOf fmt)) = 2 := by
    cases fmt <;> decide
  rw [le_div_iff₀ hpos.2]
  calc 2 ^ (fpQmin (formatOf fmt) + (formatOf fmt).fracBits) * fpValue (sumOf fmt x y z)
      ≤ 2 ^ (fpQmin (formatOf fmt) + (formatOf fmt).fracBits) * 2 ^ (fpPrec (formatOf fmt) + fpQmax (formatOf fmt)) :=
        mul_le_mul_of_nonneg_left (hlt.trans (overflowBound_lt _)).le (zpow_pos two_pos _).le
    _ ≤ 126 := by rw [← zpow_add₀ two_ne_zero, hrange]; norm_num

/-- The weight of the ordinary case: finite, positive, and with the sum a product hardly above 126. -/
structure OrdinaryWeight (fmt : ArithFormat) (x y z : F32) : Prop where
  finite : fpIsFinite (weightOf fmt x y z) = true
  pos : 0 < fpValue (weightOf fmt x y z)
  mul_sum_le : fpValue (sumOf fmt x y z) * fpValue (weightOf fmt x y z) ≤ 126 * (513 / 512)

theorem ordinaryWeight (h : OrdinaryCase fmt x y z) : OrdinaryWeight fmt x y z := by
  have hover := weight_lt_overflowBound h
  obtain ⟨-, hpos, -⟩ := h
  have hround := weight_roundsTo fmt (sumOf_canonical fmt x y z) hpos
  have hquot : 0 < 126 / fpValue (sumOf fmt x y z) := div_pos (by norm_num) hpos.2
  have hfin : fpIsFinite (weightOf fmt x y z) = true := by
    unfold weightOf
    cases hr : fpDiv (formatOf fmt) (fpOfInt (formatOf fmt) wScale) (sumOf fmt x y z) with
    | nan => rw [hr] at hround; exact hround.elim
    | inf neg =>
      rw [hr] at hround
      exact absurd hround.1 (not_le.2 (by rwa [abs_of_pos hquot]))
    | fin neg m e => rfl
  have herr := (hround.relative_error hfin (two_zpow_le_weight hpos)).trans (div_two_pow_fracBits_le fmt hquot.le)
  obtain ⟨hlo, hhi⟩ := abs_le.1 herr
  refine ⟨hfin, by unfold weightOf; linarith, ?_⟩
  calc fpValue (sumOf fmt x y z) * fpValue (weightOf fmt x y z)
      ≤ fpValue (sumOf fmt x y z) * (126 / fpValue (sumOf fmt x y z) * (513 / 512)) :=
        mul_le_mul_of_nonneg_left (by unfold weightOf; linarith) hpos.2.le
    _ = 126 * (513 / 512) := by have := hpos.2.ne'; field_simp

end

end Sys2Proof.Machine
end

section
/-! SUPPORT. The products and the code of the ordinary case, and the settled statements about them (41_encoder.md R114 to R116,
R122). -/

namespace Sys2Proof.Machine

/-! ## The products (41_encoder.md R113, R122) -/

section
variable {fmt : ArithFormat} {x y z v : F32}

/-- The exact product of a component and the weight. -/
def exactProduct (fmt : ArithFormat) (x y z v : F32) : ℚ :=
  fpValue (magnitudeOperand fmt v) * fpValue (weightOf fmt x y z)

theorem product_roundsTo (hw : OrdinaryWeight fmt x y z) (hb : BelowSum fmt x y z v) :
    RoundsTo (formatOf fmt) (exactProduct fmt x y z v)
      (fpMul (formatOf fmt) (magnitudeOperand fmt v) (weightOf fmt x y z)) := by
  obtain ⟨na, ma, ea, hv⟩ := eq_fin_of_fpIsFinite hb.operand.finite
  obtain ⟨nw, mw, ew, hw'⟩ := eq_fin_of_fpIsFinite hw.finite
  rw [exactProduct, hv, hw', fpValue_mul]
  exact fpRound_roundsTo (formatOf_fracBits_pos fmt) _ _ _

theorem exactProduct_bounds (hw : OrdinaryWeight fmt x y z) (hb : BelowSum fmt x y z v) :
    0 ≤ exactProduct fmt x y z v ∧ exactProduct fmt x y z v ≤ 126 * (513 / 512) :=
  ⟨mul_nonneg hb.operand.nonneg hw.pos.le, (mul_le_mul_of_nonneg_right hb.le hw.pos.le).trans hw.mul_sum_le⟩

/-- The rounded product is between 0 and 126.5. -/
theorem product_inRange (hw : OrdinaryWeight fmt x y z) (hb : BelowSum fmt x y z v) :
    InRange (formatOf fmt) 0 (253 / 2) (fpMul (formatOf fmt) (magnitudeOperand fmt v) (weightOf fmt x y z)) := by
  obtain ⟨hlo, hhi⟩ := exactProduct_bounds hw hb
  have hzero := representable_formatOf fmt (m := 0) (e := 0) (by norm_num) (by norm_num) (by norm_num)
  have htop := representable_formatOf fmt (m := 253) (e := -1) (by norm_num) (by norm_num) (by norm_num)
  norm_num at hzero htop
  exact (product_roundsTo hw hb).inRange hzero htop hlo (hhi.trans (by norm_num))

/-- The products are finite and lie in [0, 127). -/
theorem product_bounds (hw : OrdinaryWeight fmt x y z) (hb : BelowSum fmt x y z v) :
    fpIsFinite (fpMul (formatOf fmt) (magnitudeOperand fmt v) (weightOf fmt x y z)) = true ∧
      0 ≤ fpValue (fpMul (formatOf fmt) (magnitudeOperand fmt v) (weightOf fmt x y z)) ∧
      fpValue (fpMul (formatOf fmt) (magnitudeOperand fmt v) (weightOf fmt x y z)) < 127 := by
  obtain ⟨-, hfin, hge, hle⟩ := product_inRange hw hb
  exact ⟨hfin, hge, hle.trans_lt (by norm_num)⟩

/-- The projection is the floor of the rounded product. -/
theorem projection_le_product (hw : OrdinaryWeight fmt x y z) (hb : BelowSum fmt x y z v) :
    ((projectWith fmt (weightOf fmt x y z) v).toNat : ℚ) ≤
      fpValue (fpMul (formatOf fmt) (magnitudeOperand fmt v) (weightOf fmt x y z)) := by
  have hrange := product_inRange hw hb
  obtain ⟨-, -, -, hsat⟩ := satU16TruncatesAndSaturates
  rw [projectWith, hsat _ hrange.finite]
  exact (Nat.cast_le.2 (min_le_right _ _)).trans (Nat.floor_le hrange.ge)

/-- Rounding moves the product by less than 1/8 below the projection: the number 1/8 below an integer is representable. -/
theorem projection_lt_exactProduct (hw : OrdinaryWeight fmt x y z) (hb : BelowSum fmt x y z v) :
    ((projectWith fmt (weightOf fmt x y z) v).toNat : ℚ) - 1 / 8 < exactProduct fmt x y z v := by
  have hrange := product_inRange hw hb
  have hle := projection_le_product hw hb
  have hnn := (exactProduct_bounds hw hb).1
  generalize (projectWith fmt (weightOf fmt x y z) v).toNat = i at hle
  by_contra hge
  rw [not_lt] at hge
  have hi : 1 ≤ i := by
    by_contra h0
    rw [show i = 0 by omega] at hge
    norm_num at hge
    linarith
  have hi' : i < 127 := by
    have : (i : ℚ) < 127 := hle.trans_lt (hrange.le.trans_lt (by norm_num))
    exact_mod_cast this
  have hrep := representable_formatOf fmt (m := 8 * i - 1) (e := -3) (by omega) (by norm_num) (by norm_num)
  have hval : ((8 * i - 1 : Nat) : ℚ) * 2 ^ (-3 : Int) = i - 1 / 8 := by
    rw [Nat.cast_sub (by omega)]; push_cast; norm_num; ring
  rw [hval] at hrep
  linarith [(product_roundsTo hw hb).le_of_representable hrange.finite hrep hge]

/-- The projections of the ordinary case leave at least 0 for z (41_encoder.md R122). -/
theorem projections_add_le (h : OrdinaryCase fmt x y z) :
    (projectionsOf fmt x y z).xi.toNat + (projectionsOf fmt x y z).yi.toNat ≤ 126 := by
  have hw := ordinaryWeight h
  obtain ⟨hn, hpos, -⟩ := h
  obtain ⟨hbx, hby, -⟩ := belowSum_of_finite hn hpos.1
  rw [projectionsOf_eq]
  dsimp only
  have hx := projection_lt_exactProduct hw hbx
  have hy := projection_lt_exactProduct hw hby
  have hsum : exactProduct fmt x y z x + exactProduct fmt x y z y < 127 - 1 / 4 :=
    calc exactProduct fmt x y z x + exactProduct fmt x y z y
        = (fpValue (magnitudeOperand fmt x) + fpValue (magnitudeOperand fmt y)) * fpValue (weightOf fmt x y z) :=
          (add_mul _ _ _).symm
      _ ≤ 512 / 511 * fpValue (sumOf fmt x y z) * fpValue (weightOf fmt x y z) :=
          mul_le_mul_of_nonneg_right (add_operands_le_sumOf hn hpos.1) hw.pos.le
      _ = 512 / 511 * (fpValue (sumOf fmt x y z) * fpValue (weightOf fmt x y z)) := mul_assoc _ _ _
      _ ≤ 512 / 511 * (126 * (513 / 512)) := mul_le_mul_of_nonneg_left hw.mul_sum_le (by norm_num)
      _ < 127 - 1 / 4 := by norm_num
  generalize (projectWith fmt (weightOf fmt x y z) x).toNat = i at hx ⊢
  generalize (projectWith fmt (weightOf fmt x y z) y).toNat = j at hy ⊢
  have hij : ((i + j : Nat) : ℚ) < (127 : Nat) := by push_cast; linarith
  exact Nat.le_of_lt_succ (by exact_mod_cast hij)

end

/-! ## The fold and the composition of projections that fit (41_encoder.md R114 to R116) -/

section
variable {p : Proj}

theorem packFold_of_le (h : p.xi.toNat ≤ 63) : packFold p = p := if_neg (by unfold encFoldT; omega)

theorem packFold_of_ge (h : 64 ≤ p.xi.toNat) : packFold p = { xi := 127#16 - p.xi, yi := 127#16 - p.yi } := if_pos h

/-- A projection up to 127 is folded without wrapping. -/
theorem toNat_fold {a : BitVec 16} (h : a.toNat ≤ 127) : (127#16 - a).toNat = 127 - a.toNat := by bv_omega

/-- The fold's results fit the fields. -/
theorem packFold_fits (h : p.xi.toNat + p.yi.toNat ≤ 126) :
    (packFold p).xi.toNat ≤ 63 ∧ (packFold p).yi.toNat ≤ 127 := by
  rcases Nat.lt_or_ge p.xi.toNat 64 with hlt | hge
  · rw [packFold_of_le (by omega)]; omega
  · rw [packFold_of_ge hge, toNat_fold (by omega), toNat_fold (by omega)]; omega

/-- Values that fit their fields lie side by side, under either policy. -/
theorem toNat_magnitudeBits (policy : SatPolicy) (hx : p.xi.toNat ≤ 63) (hy : p.yi.toNat ≤ 127) :
    (magnitudeBits policy p).toNat = 128 * p.xi.toNat + p.yi.toNat := by
  have hmaskx : p.xi &&& 0x3f#16 = p.xi := by
    apply BitVec.eq_of_toNat_eq
    rw [show 0x3f#16 = BitVec.ofNat 16 (2 ^ 6 - 1) by rfl, toNat_and_lowMask _ 6 (by norm_num)]
    omega
  have hmasky : p.yi &&& 0x7f#16 = p.yi := by
    apply BitVec.eq_of_toNat_eq
    rw [show 0x7f#16 = BitVec.ofNat 16 (2 ^ 7 - 1) by rfl, toNat_and_lowMask _ 7 (by norm_num)]
    omega
  have hor : magnitudeBits policy p = (p.xi <<< 7) ||| p.yi := by
    cases policy <;> simp [magnitudeBits, packCompose, hmaskx, hmasky]
  rw [hor, BitVec.toNat_or, BitVec.toNat_shiftLeft, Nat.mod_eq_of_lt (by rw [Nat.shiftLeft_eq]; omega),
    ← Nat.shiftLeft_add_eq_or_of_lt (by omega), Nat.shiftLeft_eq]
  omega

end

/-- The fields and the flags of sign flags with a magnitude index (30_encoding.md R70, R71). -/
theorem fields_of_signBits_or {nx ny nz : Bool} {m : Code} {X Y : Nat} (hX : X ≤ 63) (hY : Y ≤ 127)
    (hm : m.toNat = 128 * X + Y) :
    xfield (signBits nx ny nz ||| m) = X ∧ yfield (signBits nx ny nz ||| m) = Y ∧
      signX (signBits nx ny nz ||| m) = nx ∧ signY (signBits nx ny nz ||| m) = ny ∧ signZ (signBits nx ny nz ||| m) = nz := by
  have hhigh (i : Nat) (hi : 13 ≤ i) : m.getLsbD i = false :=
    Nat.testBit_lt_two_pow (lt_of_lt_of_le (by omega : m.toNat < 2 ^ 13) (Nat.pow_le_pow_right two_pos hi))
  have hindex : (mindex (signBits nx ny nz ||| m)).toNat = 128 * X + Y := by
    have hlow : mindex (signBits nx ny nz) = 0#13 := by cases nx <;> cases ny <;> cases nz <;> rfl
    rw [mindex, BitVec.extractLsb'_or, ← mindex, ← mindex, hlow, BitVec.zero_or, toNat_mindex]
    omega
  obtain ⟨hfields, -, hy, -⟩ := codeIsSignsAndMagnitudeIndex (signBits nx ny nz ||| m)
  refine ⟨by omega, by omega, ?_, ?_, ?_⟩
  · rw [signX, BitVec.getLsbD_or, getLsbD_signBits, hhigh 15 (by norm_num)]; simp
  · rw [signY, BitVec.getLsbD_or, getLsbD_signBits, hhigh 14 (by norm_num)]; simp
  · rw [signZ, BitVec.getLsbD_or, getLsbD_signBits, hhigh 13 (by norm_num)]; simp

/-- The code of projections that leave at least 0 for z. -/
theorem packCode_fields {params : Params} {x y z : F32} {p : Proj} (hp : projectionsOf params.packFormat x y z = p)
    (h : p.xi.toNat + p.yi.toNat ≤ 126) :
    xfield (packCode params x y z) = (packFold p).xi.toNat ∧ yfield (packCode params x y z) = (packFold p).yi.toNat ∧
      signBits (signX (packCode params x y z)) (signY (packCode params x y z)) (signZ (packCode params x y z)) =
        signsByBits x y z := by
  obtain ⟨hx, hy⟩ := packFold_fits h
  rw [packCode_eq, packCompose_eq_or, hp, signsByBits]
  obtain ⟨hxf, hyf, hsx, hsy, hsz⟩ := fields_of_signBits_or (nx := isNegativePattern x) (ny := isNegativePattern y)
    (nz := isNegativePattern z) hx hy (toNat_magnitudeBits params.satPolicy hx hy)
  exact ⟨hxf, hyf, by rw [hsx, hsy, hsz]⟩

theorem codeClass_of_le {c : Code} (h : xfield c + yfield c ≤ 126) : codeClass c = .unfolded := if_pos h

theorem codeClass_of_ge {c : Code} (h : 128 ≤ xfield c + yfield c) : codeClass c = .folded := by
  rw [codeClass, if_neg (by omega), if_neg (by omega)]

/-- Settles O34: the products round to at most 126.5, their exact sum is hardly above 126, and what is folded or not fits the
fields. -/
theorem ordinaryCodesHoldTheProjections : Obligations.OrdinaryCodesHoldTheProjections := by
  intro x y z s hs h fmt v p
  have hw := ordinaryWeight h
  have hle : p.xi.toNat + p.yi.toNat ≤ 126 := projections_add_le h
  obtain ⟨hx, hy, hsigns⟩ := packCode_fields (params := s.params) (p := p) rfl hle
  obtain ⟨hn, ⟨hfin, -⟩, -⟩ := h
  obtain ⟨hbx, hby, -⟩ := belowSum_of_finite hn hfin
  refine ⟨packCode s.params x y z, exec_pack hs x y z, ?_, ?_, hle, hsigns, fun hlow => ?_, fun hhigh => ?_⟩
  · rw [packWeight_packSigns]
    exact ⟨hw.finite, hw.pos⟩
  · rw [packWeight_packSigns]
    rintro a (rfl | rfl)
    · exact product_bounds hw hbx
    · exact product_bounds hw hby
  · rw [packFold_of_le hlow] at hx hy
    exact ⟨hx, hy, codeClass_of_le (by omega)⟩
  · rw [packFold_of_ge hhigh, toNat_fold (by omega)] at hx
    rw [packFold_of_ge hhigh, toNat_fold (by omega)] at hy
    exact ⟨hx, hy, codeClass_of_ge (by omega)⟩

/-! ## The cases of the encoder (41_encoder.md section 3) -/

/-- Every operand triple is degenerate, zero, on the saturated path or in the ordinary case. -/
theorem encoder_cases (fmt : ArithFormat) (x y z : F32) :
    (¬ NoNaN x y z ∨ sumOf fmt x y z = .inf false) ∨
    (isZeroPattern x = true ∧ isZeroPattern y = true ∧ isZeroPattern z = true) ∨
    SaturatedPath fmt x y z ∨ OrdinaryCase fmt x y z := by
  by_cases hn : NoNaN x y z
  swap
  · exact .inl (.inl hn)
  rcases sumOf_nonneg (fmt := fmt) hn with hinf | hfin
  · exact .inl (.inr hinf)
  refine .inr ?_
  rcases hfin.nonneg.eq_or_lt with h0 | hpos
  · exact .inl (isZeroPattern_of_sumOf_lt hn hfin.finite (h0 ▸ zpow_pos two_pos _))
  · refine .inr ?_
    by_cases hsat : fmt = .binary32 ∧ fpValue (sumOf fmt x y z) < fpValue sMin
    · exact .inl ⟨hsat.1, hn, ⟨hfin.finite, hpos⟩, hsat.2⟩
    · exact .inr ⟨hn, ⟨hfin.finite, hpos⟩, fun h32 => not_lt.1 fun hlt => hsat ⟨h32, hlt⟩⟩

/-- Settles O36: degenerate and zero operands give the sign flags or 0, and in the ordinary case both values fit their fields,
where the policies compose alike. -/
theorem policiesAgreeOutsideTheSaturatedPath : Obligations.PoliciesAgreeOutsideTheSaturatedPath := by
  intro params x y z hsat
  rcases encoder_cases params.packFormat x y z with hdeg | ⟨hx, hy, hz⟩ | hsat' | hord
  · rw [packCode_of_degenerate (params := { params with satPolicy := .wrap16 }) hdeg,
      packCode_of_degenerate (params := { params with satPolicy := .mask }) hdeg]
  · rw [packCode_of_zero _ hx hy hz, packCode_of_zero _ hx hy hz]
  · exact absurd hsat' hsat
  · obtain ⟨hx, hy⟩ := packFold_fits (projections_add_le hord)
    have hbits (policy : SatPolicy) := toNat_magnitudeBits policy hx hy
    have heq := BitVec.eq_of_toNat_eq ((hbits .wrap16).trans (hbits .mask).symm)
    rw [packCode_eq, packCode_eq, packCompose_eq_or, packCompose_eq_or, heq]

end Sys2Proof.Machine
end

section
/-! SUPPORT. The coordinates of a code, and the settled statements about them: the decoder folds as the table does, and undoes
the encoder's fold (40_lut_builder.md R90; 42_decoder.md R131 to R133, R138). -/

namespace Sys2Proof.Machine

/-! ## The fold (42_decoder.md R132, R133) -/

theorem foldCoords_of_le {x y : Nat} (h : x + y ≤ 126) : foldCoords x y = { xb := x, yb := y, zb := 126 - x - y } := by
  simp [foldCoords, decFoldT, wScale, show ¬ 127 ≤ x + y by omega]

theorem foldCoords_of_ge {x y : Nat} (h : 127 ≤ x + y) :
    foldCoords x y = { xb := 127 - x, yb := 127 - y, zb := x + y - 128 } := by
  simp only [foldCoords, decFoldT, foldK, wScale, h, if_true, Coords.mk.injEq]
  omega

/-- Three classes of sums, three ranges of the implied coordinate. -/
theorem foldCoords_zb_cases (x y : Nat) :
    (x + y ≤ 126 ∧ (foldCoords x y).zb = 126 - x - y) ∨ (x + y = 127 ∧ (foldCoords x y).zb = -1) ∨
      (128 ≤ x + y ∧ (foldCoords x y).zb = x + y - 128) := by
  rcases Nat.lt_or_ge (x + y) 127 with hlt | hge
  · exact .inl ⟨by omega, by rw [foldCoords_of_le (by omega)]⟩
  · rw [foldCoords_of_ge hge]
    dsimp only
    omega

/-- The decoder's fold undoes the encoder's, and folds the same values, of projections that leave at least 0 for z
(42_decoder.md R138). -/
theorem foldCoords_packFold {p : Proj} (h : p.xi.toNat + p.yi.toNat ≤ 126) :
    (127 ≤ (packFold p).xi.toNat + (packFold p).yi.toNat ↔ 64 ≤ p.xi.toNat) ∧
      foldCoords (packFold p).xi.toNat (packFold p).yi.toNat =
        { xb := p.xi.toNat, yb := p.yi.toNat, zb := 126 - (p.xi.toNat : Int) - (p.yi.toNat : Int) } := by
  rcases Nat.lt_or_ge p.xi.toNat 64 with hlow | hhigh
  · rw [packFold_of_le (by omega)]
    exact ⟨by omega, foldCoords_of_le h⟩
  · rw [packFold_of_ge hhigh, toNat_fold (by omega), toNat_fold (by omega)]
    refine ⟨by omega, ?_⟩
    rw [foldCoords_of_ge (by omega), Coords.mk.injEq]
    omega

/-! ## The coordinates of a code -/

/-- The decoder's coordinates are the table's at the magnitude index, whose digits the fields are. -/
theorem unpackCoords_eq_tableCoords (c : Code) : unpackCoords c = tableCoords (mindex c).toNat := by
  have hx : xfield c = (mindex c).toNat / 128 := by rw [xfield_eq, toNat_mindex]; omega
  have hy : yfield c = (mindex c).toNat % 128 := by rw [yfield_eq, toNat_mindex]; omega
  rw [unpackCoords, tableCoords, hx, hy]

theorem codeClass_eq_boundary_iff (c : Code) : codeClass c = .boundary ↔ xfield c + yfield c = 127 := by
  rcases Nat.lt_trichotomy (xfield c + yfield c) 127 with hlt | heq | hgt
  · simp [codeClass_of_le (Nat.le_of_lt_succ hlt), hlt.ne]
  · simp [codeClass, heq]
  · simp [codeClass_of_ge hgt, hgt.ne']

/-- zbits is -1 for the boundary class alone (42_decoder.md R133). -/
theorem unpackCoords_zb_eq_neg_one_iff (c : Code) : (unpackCoords c).zb = -1 ↔ codeClass c = .boundary := by
  have h := foldCoords_zb_cases (xfield c) (yfield c)
  rw [codeClass_eq_boundary_iff, unpackCoords]
  omega

/-! ## The settled statements -/

/-- Settles O35: the code's fields hold the folded projections, and the decoder's fold undoes the encoder's. -/
theorem decoderRecoversTheProjections : Obligations.DecoderRecoversTheProjections := by
  intro params x y z h p c
  have hle : p.xi.toNat + p.yi.toNat ≤ 126 := projections_add_le h
  obtain ⟨hx, hy, -⟩ := packCode_fields (params := params) (p := p) rfl hle
  rw [unpackCoords, hx, hy]
  exact foldCoords_packFold hle

/-- Settles O18, by the class of the code. -/
theorem decoderAndTableFoldAlike : Obligations.DecoderAndTableFoldAlike := by
  intro c
  refine ⟨unpackCoords_eq_tableCoords c, unpackCoords_zb_eq_neg_one_iff c, fun hclass => ?_⟩
  have hx := xfield_eq c
  have hy := yfield_eq c
  have h := foldCoords_zb_cases (xfield c) (yfield c)
  rw [ne_eq, codeClass_eq_boundary_iff] at hclass
  rw [unpackCoords]
  omega

/-- Settles O22: the response is the stateless codec's. -/
theorem unpackAnswersTheDecodedVector : Obligations.UnpackAnswersTheDecodedVector :=
  fun c _ h hs => exec_of_inv h hs (.unpack c)

end Sys2Proof.Machine
end

section
/-! SUPPORT. The sign flags in the decoder, and the settled statement about flipping them (42_decoder.md R136, R137). -/

namespace Sys2Proof.Machine

theorem fneg32_fneg32 (v : F32) : fneg32 (fneg32 v) = v := by
  rw [fneg32, fneg32, BitVec.xor_assoc, BitVec.xor_self, BitVec.xor_zero]

/-- A sign flag that is flipped negates the component once more. -/
theorem applySign_xor (neg flip : Bool) (v : F32) : applySign (neg ^^ flip) v = applySign flip (applySign neg v) := by
  cases flip with
  | false => rw [Bool.xor_false]; rfl
  | true =>
    cases neg with
    | false => rfl
    | true => exact (fneg32_fneg32 v).symm

/-- A mask above the magnitude index leaves the index alone. -/
theorem mindex_xor {mask : Code} (h : mindex mask = 0#13) (c : Code) : mindex (c ^^^ mask) = mindex c := by
  rw [mindex, BitVec.extractLsb'_xor, ← mindex, ← mindex, h, BitVec.xor_zero]

/-- The decoder's result with the sign flags of a code taken apart from its magnitude index. -/
theorem unpackWith_eq (table : LutIndex → F32) (c : Code) :
    unpackWith table c =
      { x := applySign (signX c) (fmul32 (table (mindex c)) (i2f32 (tableCoords (mindex c).toNat).xb))
        y := applySign (signY c) (fmul32 (table (mindex c)) (i2f32 (tableCoords (mindex c).toNat).yb))
        z := applySign (signZ c) (fmul32 (table (mindex c)) (i2f32 (tableCoords (mindex c).toNat).zb)) } := by
  rw [← unpackCoords_eq_tableCoords]; rfl

theorem signX_xor (c mask : Code) : signX (c ^^^ mask) = (signX c ^^ signX mask) := BitVec.getLsbD_xor
theorem signY_xor (c mask : Code) : signY (c ^^^ mask) = (signY c ^^ signY mask) := BitVec.getLsbD_xor
theorem signZ_xor (c mask : Code) : signZ (c ^^^ mask) = (signZ c ^^ signZ mask) := BitVec.getLsbD_xor

/-- The decoder under a mask of sign flags: each flag of the mask negates its component. -/
theorem unpackWith_xor (table : LutIndex → F32) {mask : Code} (h : mindex mask = 0#13) (c : Code) :
    unpackWith table (c ^^^ mask) =
      { x := applySign (signX mask) (unpackWith table c).x
        y := applySign (signY mask) (unpackWith table c).y
        z := applySign (signZ mask) (unpackWith table c).z } := by
  rw [unpackWith_eq, unpackWith_eq, mindex_xor h, signX_xor, signY_xor, signZ_xor, applySign_xor, applySign_xor,
    applySign_xor]

/-- Settles O26: the three masks have one flag each and no magnitude. -/
theorem signFlagsFlipOnlySignBits : Obligations.SignFlagsFlipOnlySignBits := by
  intro table c
  refine ⟨?_, ?_, ?_⟩
  · rw [unpackWith_xor table (mask := signMaskX) (by decide)]; rfl
  · rw [unpackWith_xor table (mask := signMaskY) (by decide)]; rfl
  · rw [unpackWith_xor table (mask := signMaskZ) (by decide)]; rfl

end Sys2Proof.Machine
end

section
/-! SUPPORT. The factor of a code and its products with the coordinates 0 and -1, and the settled statements about signed zeros
and boundary codes (42_decoder.md R134, R135, R141, R142). -/

namespace Sys2Proof.Machine

/-! ## Negation of a pattern (00_scope.md R11) -/

theorem signField_eq_getLsbD (v : F32) : signField v = v.getLsbD 31 := by
  rw [BitVec.getLsbD, Nat.testBit_eq_decide_div_mod_eq]; rfl

theorem fracField_eq_extract (v : F32) : fracField v = (v.extractLsb' 0 23).toNat := by
  rw [BitVec.extractLsb'_toNat, Nat.shiftRight_zero]; rfl

/-- Negation flips the sign of the value, whatever the value. -/
theorem ofBits32_fneg32 (v : F32) : ofBits32 (fneg32 v) = fpNeg (ofBits32 v) := by
  have hsign : signField (fneg32 v) = !signField v := by
    rw [signField_eq_getLsbD, fneg32, BitVec.getLsbD_xor, ← signField_eq_getLsbD,
      show (0x80000000#32).getLsbD 31 = true by decide, Bool.xor_true]
  have hexp : expField (fneg32 v) = expField v := by
    rw [expField_eq_extract, fneg32, BitVec.extractLsb'_xor, show BitVec.extractLsb' 23 8 0x80000000#32 = 0#8 by decide,
      BitVec.xor_zero, ← expField_eq_extract]
  have hfrac : fracField (fneg32 v) = fracField v := by
    rw [fracField_eq_extract, fneg32, BitVec.extractLsb'_xor, show BitVec.extractLsb' 0 23 0x80000000#32 = 0#23 by decide,
      BitVec.xor_zero, ← fracField_eq_extract]
  rw [ofBits32_eq, ofBits32_eq, hsign, hexp, hfrac]
  split_ifs <;> rfl

theorem fpValue_fpNeg (v : Fp) : fpValue (fpNeg v) = -fpValue v := by
  cases v with
  | nan => exact neg_zero.symm
  | inf neg => exact neg_zero.symm
  | fin neg m e => cases neg <;> simp [fpNeg, fpValue_fin]

theorem fpIsFinite_fpNeg (v : Fp) : fpIsFinite (fpNeg v) = fpIsFinite v := by cases v <;> rfl

/-- A positive pattern is known by its value. -/
theorem eq_of_fpValue_eq {a b : F32} (ha : 0 < fpValue (ofBits32 a)) (h : fpValue (ofBits32 a) = fpValue (ofBits32 b)) :
    a = b :=
  BitVec.eq_of_toNat_eq (le_antisymm (toNat_le_toNat_of_fpValue_le ha h.le) (toNat_le_toNat_of_fpValue_le (h ▸ ha) h.ge))

/-! ## Products with a coordinate (42_decoder.md R135) -/

theorem fpMul_canonical (F : FpFormat) (v w : Fp) : fpCanonical F (fpMul F v w) = true := by
  rcases v with - | na | ⟨na, ma, ea⟩ <;> rcases w with - | nb | ⟨nb, mb, eb⟩
  case fin.fin => exact fpRound_canonical ..
  case inf.fin => rw [fpMul]; split <;> rfl
  case fin.inf => rw [fpMul]; split <;> rfl
  all_goals rfl

theorem ofBits32_fmul32 (a b : F32) : ofBits32 (fmul32 a b) = fpMul binary32 (ofBits32 a) (ofBits32 b) :=
  ofBits32_toBits32 _ (fpMul_canonical ..)

section
variable {a : F32} {k : Int}

/-- A coordinate is exact as a binary32 value, so its product is one rounding of the exact one. -/
theorem fmul32_i2f32_roundsTo (ha : fpIsFinite (ofBits32 a) = true) (hk : |k| ≤ 2 ^ 24) :
    RoundsTo binary32 (fpValue (ofBits32 a) * k) (ofBits32 (fmul32 a (i2f32 k))) := by
  obtain ⟨hfin, hval⟩ := smallIntegersConvertExactly k hk
  rw [ofBits32_fmul32, ← hval]
  exact multiplicationIsCorrectlyRounded .binary32 _ _ (ofBits32_canonical a) (ofBits32_canonical _) ha hfin

/-- A positive factor takes the coordinate 0 to +0.0. -/
theorem fmul32_i2f32_zero (ha : 0 < fpValue (ofBits32 a)) : fmul32 a (i2f32 0) = 0x00000000#32 := by
  obtain ⟨m, e, hv⟩ := eq_fin_false_of_fpValue_pos ha
  have hzero : ofBits32 (i2f32 0) = .fin false 0 (-149) := by decide
  rw [fmul32, hv, hzero]
  rfl

/-- A positive factor takes the coordinate -1 to its negation, which is exact (42_decoder.md R142). -/
theorem fmul32_i2f32_neg_one (ha : 0 < fpValue (ofBits32 a)) : fmul32 a (i2f32 (-1)) = fneg32 a := by
  obtain ⟨m, e, hv⟩ := eq_fin_false_of_fpValue_pos ha
  have hfin : fpIsFinite (ofBits32 a) = true := by rw [hv]; rfl
  have hneg : fpValue (ofBits32 (fneg32 a)) = -fpValue (ofBits32 a) := by rw [ofBits32_fneg32, fpValue_fpNeg]
  have hround := fmul32_i2f32_roundsTo (k := -1) hfin (by norm_num)
  rw [Int.cast_neg, Int.cast_one, mul_neg_one, ← hneg] at hround
  have hval := (hround.exact (ofBits32_canonical _) (by rw [ofBits32_fneg32, fpIsFinite_fpNeg, hfin])).2
  have heq : a = fneg32 (fmul32 a (i2f32 (-1))) :=
    eq_of_fpValue_eq ha (by rw [ofBits32_fneg32, fpValue_fpNeg, hval, hneg, neg_neg])
  rw [heq, fneg32_fneg32, ← heq]

end

/-! ## The factor (42_decoder.md R134) -/

/-- The value of an entry is the reciprocal root that it holds. -/
theorem ofBits32_tableEntry (fmt : ArithFormat) {i : Nat} (h : i < nLut) :
    ofBits32 (tableEntry fmt i) = invSqrt fmt (tableNorm2 i) := by
  obtain ⟨hlo, hhi⟩ := tableNorm2_bounds h
  exact ofBits32_toBits32 _ (invSqrt_inRange fmt hlo hhi).canonical

theorem tableEntry_inRange (fmt : ArithFormat) {i : Nat} (h : i < nLut) :
    InRange binary32 (2 ^ (-7 : Int)) (2 ^ (-6 : Int)) (ofBits32 (tableEntry fmt i)) := by
  obtain ⟨hlo, hhi⟩ := tableNorm2_bounds h
  exact ofBits32_tableEntry fmt h ▸ invSqrt_inRange fmt hlo hhi

theorem tableFn_pos (fmt : ArithFormat) (i : LutIndex) : 0 < fpValue (ofBits32 (tableFn fmt i)) :=
  (zpow_pos two_pos _).trans_le (tableEntry_inRange fmt i.isLt).ge

/-! ## The settled statements -/

/-- A component whose coordinate is 0, with its sign flag applied. -/
theorem applySign_fmul32_zero (fmt : ArithFormat) (i : LutIndex) (neg : Bool) {k : Int} (hk : k = 0) :
    applySign neg (fmul32 (tableFn fmt i) (i2f32 k)) = if neg then 0x80000000#32 else 0x00000000#32 := by
  rw [hk, fmul32_i2f32_zero (tableFn_pos fmt i)]
  cases neg <;> rfl

/-- The entry of index 0 is 1/126 in both formats, and 126 times it rounds to 1. -/
theorem fmul32_tableEntry_zero (fmt : ArithFormat) : fmul32 (tableEntry fmt 0) (i2f32 126) = 0x3f800000#32 := by
  have hentry : tableEntry fmt 0 = 0x3c020821#32 := by
    cases fmt with
    | binary32 => exact tableEntry_binary32_zero
    | binary64 => rfl
  rw [hentry]
  rfl

/-- The decoder at magnitude index 0, whose coordinates are 0, 0 and 126. -/
theorem unpackWith_of_mindex_zero (fmt : ArithFormat) {c : Code} (h : mindex c = 0#13) :
    unpackWith (tableFn fmt) c =
      { x := if signX c then 0x80000000#32 else 0x00000000#32
        y := if signY c then 0x80000000#32 else 0x00000000#32
        z := applySign (signZ c) 0x3f800000#32 } := by
  rw [unpackWith_eq, h, applySign_fmul32_zero fmt 0#13 _ (by decide), applySign_fmul32_zero fmt 0#13 _ (by decide),
    ← fmul32_tableEntry_zero fmt]
  rfl

/-- Settles O24: the factor is positive, so the product with 0 is +0.0; the two examples have the magnitude index 0. -/
theorem zeroCoordinatesDecodeToSignedZeros : Obligations.ZeroCoordinatesDecodeToSignedZeros := by
  refine ⟨fun fmt => ⟨?_, ?_⟩, fun fmt c => ⟨fun h => ?_, fun h => ?_, fun h => ?_⟩⟩
  · rw [unpackWith_of_mindex_zero fmt (by decide)]; rfl
  · rw [unpackWith_of_mindex_zero fmt (by decide)]; rfl
  · exact applySign_fmul32_zero fmt _ _ h
  · exact applySign_fmul32_zero fmt _ _ h
  · exact applySign_fmul32_zero fmt _ _ h

/-- Settles O25: zbits is -1, and the product with -1 is the factor's negation. -/
theorem boundaryCodesDecodeWithOppositeZ : Obligations.BoundaryCodesDecodeWithOppositeZ := by
  intro fmt c h
  have hz : (unpackWith (tableFn fmt) c).z = applySign (signZ c) (fneg32 (tableFn fmt (mindex c))) := by
    rw [← fmul32_i2f32_neg_one (tableFn_pos fmt (mindex c)), ← (unpackCoords_zb_eq_neg_one_iff c).2 h]
    rfl
  rw [hz]
  cases signZ c with
  | false => rfl
  | true => exact fneg32_fneg32 _

end Sys2Proof.Machine
end

section
/-! SUPPORT. How far a table entry is from the exact reciprocal root: the root, the reciprocal and the narrowing each err by a
last place at most (40_lut_builder.md R91; 42_decoder.md R139). -/

namespace Sys2Proof.Machine

/-! ## The rounded root -/

/-- The root of n as the table function rounds it. -/
def roundedRoot (fmt : ArithFormat) (n : Nat) : ℚ := fpValue (fpSqrt (formatOf fmt) (fpOfInt (formatOf fmt) n))

section
variable (fmt : ArithFormat) {n : Nat}

/-- The root and the rounded root lie between two neighbours `t` and `t + 2^-17` among the binary32 numbers from 64 to 128. -/
theorem exists_roundedRoot_bracket (hlo : 5292 ≤ n) (hhi : n ≤ 16130) :
    ∃ t : ℚ, 64 ≤ t ∧ t ^ 2 ≤ n ∧ n ≤ (t + 2 ^ (-17 : Int)) ^ 2 ∧
      t ≤ roundedRoot fmt n ∧ roundedRoot fmt n ≤ t + 2 ^ (-17 : Int) := by
  obtain ⟨k, hk⟩ : ∃ k, k = Nat.sqrt (n * 2 ^ 34) := ⟨_, rfl⟩
  have hge : 2 ^ 23 ≤ k := by rw [hk, Nat.le_sqrt]; omega
  have hlt : k < 2 ^ 24 - 1 := by rw [hk, Nat.sqrt_lt]; omega
  have hsq : ((k * k : Nat) : ℚ) ≤ (n * 2 ^ 34 : Nat) := Nat.cast_le.2 (hk ▸ Nat.sqrt_le _)
  have hsq' : ((n * 2 ^ 34 : Nat) : ℚ) ≤ ((k + 1) * (k + 1) : Nat) := Nat.cast_le.2 (hk ▸ (Nat.lt_succ_sqrt _).le)
  have hgeQ : (2 ^ 23 : ℚ) ≤ k := by exact_mod_cast hge
  push_cast at hsq hsq'
  have hnext : ((k + 1 : Nat) : ℚ) * 2 ^ (-17 : Int) = k * 2 ^ (-17 : Int) + 2 ^ (-17 : Int) := by push_cast; ring
  have hbelow : ((k : ℚ) * 2 ^ (-17 : Int)) ^ 2 ≤ n := by norm_num; linarith
  have habove : (n : ℚ) ≤ (k * 2 ^ (-17 : Int) + 2 ^ (-17 : Int)) ^ 2 := by norm_num; linarith
  have hroot := fpSqrt_natCast_inRange fmt (n := n) (by omega) (by omega)
    (representable_formatOf fmt (m := k) (e := -17) (by omega) (by norm_num) (by norm_num))
    (representable_formatOf fmt (m := k + 1) (e := -17) (by omega) (by norm_num) (by norm_num))
    (by positivity) (by positivity) hbelow (hnext ▸ habove)
  rw [hnext] at hroot
  exact ⟨k * 2 ^ (-17 : Int), by norm_num; linarith, hbelow, habove, hroot.ge, hroot.le⟩

/-! ## The rounded reciprocal -/

/-- In both formats a number from 2^-126 on is rounded with a relative error of at most 2^-23. -/
theorem RoundsTo.error_le {x : ℚ} {r : Fp} (h : RoundsTo (formatOf fmt) x r) (hr : fpIsFinite r = true)
    (hx : 2 ^ (-126 : Int) ≤ x) : |x - fpValue r| ≤ x / 2 ^ 23 := by
  have hx0 : 0 ≤ x := (zpow_pos two_pos _).le.trans hx
  have hnormal : fpQmin (formatOf fmt) + (formatOf fmt).fracBits ≤ -126 := by cases fmt <;> decide
  have hfrac : 23 ≤ (formatOf fmt).fracBits := by cases fmt <;> decide
  refine (h.relative_error hr ((zpow_le_zpow_right₀ one_le_two hnormal).trans hx)).trans ?_
  exact div_le_div_of_nonneg_left hx0 (by positivity) (pow_le_pow_right₀ one_le_two hfrac)

theorem roundedRoot_bounds (hlo : 5292 ≤ n) (hhi : n ≤ 16130) : 64 ≤ roundedRoot fmt n ∧ roundedRoot fmt n ≤ 128 := by
  obtain ⟨-, -, hge, hle⟩ := fpSqrt_norm_inRange fmt hlo hhi
  exact ⟨le_of_eq_of_le (by norm_num) hge, hle.trans_eq (by norm_num)⟩

/-- The reciprocal is one rounding, of the reciprocal of the rounded root. -/
theorem reciprocal_roundsTo (hlo : 5292 ≤ n) (hhi : n ≤ 16130) :
    RoundsTo (formatOf fmt) (1 / roundedRoot fmt n)
      (fpDiv (formatOf fmt) (fpOfInt (formatOf fmt) 1) (fpSqrt (formatOf fmt) (fpOfInt (formatOf fmt) n))) := by
  have hone := fpOfInt_natCast_exact fmt (n := 1) (by norm_num)
  have hval : fpValue (fpOfInt (formatOf fmt) 1) = 1 := by exact_mod_cast le_antisymm hone.le hone.ge
  have hroot := fpSqrt_norm_inRange fmt hlo hhi
  have hpos : 0 < roundedRoot fmt n := lt_of_lt_of_le (by norm_num) (roundedRoot_bounds fmt hlo hhi).1
  have h := divisionIsCorrectlyRounded fmt _ _ hone.canonical hroot.canonical hone.finite hroot.finite hpos.ne'
  rwa [Nat.cast_one, hval] at h

/-- The rounded reciprocal, narrowed if need be, times the rounded root is 1 but for two relative errors. -/
theorem abs_invSqrt_mul_roundedRoot_sub_one_le (hlo : 5292 ≤ n) (hhi : n ≤ 16130) :
    |fpValue (invSqrt fmt n) * roundedRoot fmt n - 1| ≤ 4 / 2 ^ 23 := by
  have hquot := fpDiv_root_inRange fmt hlo hhi
  obtain ⟨hge, hle⟩ := roundedRoot_bounds fmt hlo hhi
  have hinv : 1 / 128 ≤ 1 / roundedRoot fmt n := one_div_le_one_div_of_le (by linarith) hle
  have hone : 1 / roundedRoot fmt n * roundedRoot fmt n = 1 := one_div_mul_cancel (by linarith)
  have herr := (reciprocal_roundsTo fmt hlo hhi).error_le fmt hquot.finite (le_trans (by norm_num) hinv)
  have hfinal : |1 / roundedRoot fmt n - fpValue (invSqrt fmt n)| ≤ 1 / roundedRoot fmt n * (4 / 2 ^ 23) := by
    cases fmt with
    | binary32 => exact herr.trans (by linarith)
    | binary64 =>
      have hnarrow := (conversionsRoundOrAreExact.1 _ hquot.canonical hquot.finite).error_le .binary32
        (invSqrt_inRange .binary64 hlo hhi).finite (le_trans (by norm_num) hquot.ge)
      refine (abs_sub_le _ _ _).trans ((add_le_add herr hnarrow).trans ?_)
      linarith [(abs_le.1 herr).1]
  calc |fpValue (invSqrt fmt n) * roundedRoot fmt n - 1|
      = |(fpValue (invSqrt fmt n) - 1 / roundedRoot fmt n) * roundedRoot fmt n| := by rw [sub_mul, hone]
    _ = |1 / roundedRoot fmt n - fpValue (invSqrt fmt n)| * roundedRoot fmt n := by
        rw [abs_mul, abs_sub_comm, abs_of_nonneg (a := roundedRoot fmt n) (by linarith)]
    _ ≤ 1 / roundedRoot fmt n * (4 / 2 ^ 23) * roundedRoot fmt n := mul_le_mul_of_nonneg_right hfinal (by linarith)
    _ = 4 / 2 ^ 23 := by rw [mul_right_comm, hone, one_mul]

/-! ## The factor against the exact root -/

/-- The factor's square times n is 1 but for three relative errors. -/
theorem invSqrt_sq_mul_bounds (hlo : 5292 ≤ n) (hhi : n ≤ 16130) :
    (1 - 6 / 2 ^ 23) ^ 2 ≤ fpValue (invSqrt fmt n) ^ 2 * n ∧ fpValue (invSqrt fmt n) ^ 2 * n ≤ (1 + 6 / 2 ^ 23) ^ 2 := by
  obtain ⟨t, ht, hbelow, habove, hge, hle⟩ := exists_roundedRoot_bracket fmt hlo hhi
  obtain ⟨herr, herr'⟩ := abs_le.1 (abs_invSqrt_mul_roundedRoot_sub_one_le fmt hlo hhi)
  have hf : 0 ≤ fpValue (invSqrt fmt n) := (zpow_pos two_pos _).le.trans (invSqrt_inRange fmt hlo hhi).ge
  generalize fpValue (invSqrt fmt n) = f at *
  -- from 64 on, the neighbours differ by at most 2^-23 of the lower one
  have hgap : t + 2 ^ (-17 : Int) ≤ t * (1 + 1 / 2 ^ 23) := by norm_num; linarith
  have hlower := mul_le_mul_of_nonneg_left (hle.trans hgap) hf
  have hupper := mul_le_mul_of_nonneg_left hgap hf
  have hroot := mul_le_mul_of_nonneg_left hge hf
  rw [← mul_assoc] at hlower hupper
  constructor
  · calc (1 - 6 / 2 ^ 23) ^ 2 ≤ (f * t) ^ 2 := pow_le_pow_left₀ (by norm_num) (by linarith) 2
      _ = f ^ 2 * t ^ 2 := mul_pow f t 2
      _ ≤ f ^ 2 * n := mul_le_mul_of_nonneg_left hbelow (sq_nonneg f)
  · calc f ^ 2 * n ≤ f ^ 2 * (t + 2 ^ (-17 : Int)) ^ 2 := mul_le_mul_of_nonneg_left habove (sq_nonneg f)
      _ = (f * (t + 2 ^ (-17 : Int))) ^ 2 := (mul_pow f _ 2).symm
      _ ≤ (1 + 6 / 2 ^ 23) ^ 2 := pow_le_pow_left₀ (mul_nonneg hf (by positivity)) (by linarith) 2

end

end Sys2Proof.Machine
end

section
/-! SUPPORT. The components of a decoded vector, and the settled statement about its norm (42_decoder.md R135, R136, R139;
95_test_vectors.md S4). -/

namespace Sys2Proof.Machine

/-! ## The coordinates against n -/

/-- A coordinate of an index whose sum of squares is `n`: it takes up all of `n` only where it is 126 and the others are 0. -/
structure IndexCoord (n : Nat) (k : Int) : Prop where
  ge : -1 ≤ k
  le : k ≤ 127
  sq : (k = 126 ∧ n = 15876) ∨ k * k < n

theorem sq_lt_sum_of_squares {x y z : Int} (hsum : x + y + z = 126) :
    (x = 126 ∧ x * x + y * y + z * z = 15876) ∨ x * x < x * x + y * y + z * z := by
  by_cases hy : y = 0
  · by_cases hz : z = 0
    · obtain rfl : x = 126 := by omega
      exact .inl ⟨rfl, by rw [hy, hz]; rfl⟩
    · exact .inr (by nlinarith [mul_self_pos.2 hz, mul_self_nonneg y])
  · exact .inr (by nlinarith [mul_self_pos.2 hy, mul_self_nonneg z])

theorem indexCoord_tableCoords {i : Nat} (h : i < nLut) :
    IndexCoord (tableNorm2 i) (tableCoords i).xb ∧ IndexCoord (tableNorm2 i) (tableCoords i).yb ∧
      IndexCoord (tableNorm2 i) (tableCoords i).zb := by
  obtain ⟨hx, hy, hz, hsum⟩ := tableCoords_bounds h
  have hn := tableNorm2_cast i
  generalize (tableCoords i).xb = x at *
  generalize (tableCoords i).yb = y at *
  generalize (tableCoords i).zb = z at *
  have hsqx := sq_lt_sum_of_squares (x := x) (y := y) (z := z) hsum
  have hsqy := sq_lt_sum_of_squares (x := y) (y := x) (z := z) (by omega)
  have hsqz := sq_lt_sum_of_squares (x := z) (y := x) (z := y) (by omega)
  exact ⟨⟨by omega, by omega, by omega⟩, ⟨by omega, by omega, by omega⟩, ⟨by omega, by omega, by omega⟩⟩

/-! ## One component -/

/-- A finite component within [-1, 1] that is the number `q` or its negation but for one relative error. -/
structure UnitComponent (q : ℚ) (v : F32) : Prop where
  finite : fpIsFinite (ofBits32 v) = true
  abs_le_one : |fpValue (ofBits32 v)| ≤ 1
  ge : (1 - 1 / 2 ^ 23) * |q| ≤ |fpValue (ofBits32 v)|
  le : |fpValue (ofBits32 v)| ≤ (1 + 1 / 2 ^ 23) * |q|

section
variable {q : ℚ} {v : F32}

theorem UnitComponent.of_error (hfin : fpIsFinite (ofBits32 v) = true) (hv : 0 ≤ fpValue (ofBits32 v))
    (hone : fpValue (ofBits32 v) ≤ 1) (hq : 0 ≤ q) (herr : |q - fpValue (ofBits32 v)| ≤ q / 2 ^ 23) :
    UnitComponent q v := by
  obtain ⟨hlo, hhi⟩ := abs_le.1 herr
  refine ⟨hfin, ?_, ?_, ?_⟩
  · rwa [abs_of_nonneg hv]
  · rw [abs_of_nonneg hv, abs_of_nonneg hq]; linarith
  · rw [abs_of_nonneg hv, abs_of_nonneg hq]; linarith

theorem UnitComponent.neg (h : UnitComponent q v) : UnitComponent (-q) v where
  finite := h.finite
  abs_le_one := h.abs_le_one
  ge := by rw [abs_neg]; exact h.ge
  le := by rw [abs_neg]; exact h.le

/-- A sign flag leaves the magnitude alone. -/
theorem UnitComponent.applySign (h : UnitComponent q v) (neg : Bool) :
    UnitComponent q (applySign neg v) := by
  cases neg with
  | false => exact h
  | true =>
    obtain ⟨hfin, hone, hge, hle⟩ := h
    have hval : |fpValue (ofBits32 (fneg32 v))| = |fpValue (ofBits32 v)| := by rw [ofBits32_fneg32, fpValue_fpNeg, abs_neg]
    exact ⟨by rwa [Machine.applySign, if_pos rfl, ofBits32_fneg32, fpIsFinite_fpNeg], hval.le.trans hone, hge.trans hval.ge,
      hval.le.trans hle⟩

/-- The square of a component against the square of the exact number. -/
theorem UnitComponent.sq_bounds (h : UnitComponent q v) :
    (1 - 1 / 2 ^ 23) ^ 2 * q ^ 2 ≤ fpValue (ofBits32 v) ^ 2 ∧ fpValue (ofBits32 v) ^ 2 ≤ (1 + 1 / 2 ^ 23) ^ 2 * q ^ 2 := by
  rw [← sq_abs q, ← sq_abs (fpValue _), ← mul_pow, ← mul_pow]
  exact ⟨pow_le_pow_left₀ (mul_nonneg (by norm_num) (abs_nonneg q)) h.ge 2, pow_le_pow_left₀ (abs_nonneg _) h.le 2⟩

end

section
variable (fmt : ArithFormat) {i : Nat} {k : Int}

/-- A coordinate that takes up all of n has the entry of index 0, and its product rounds to 1. -/
theorem fmul32_tableEntry_of_norm2_eq (hi : i < nLut) (hn : tableNorm2 i = 15876) :
    fmul32 (tableEntry fmt i) (i2f32 126) = 0x3f800000#32 := by
  have hzero : ofBits32 (tableEntry fmt i) = ofBits32 (tableEntry fmt 0) := by
    rw [ofBits32_tableEntry fmt hi, ofBits32_tableEntry fmt (by decide), hn]; rfl
  have hpos := (zpow_pos two_pos _).trans_le (tableEntry_inRange fmt hi).ge
  rw [eq_of_fpValue_eq hpos (congrArg fpValue hzero), fmul32_tableEntry_zero]

theorem fpValue_one : fpValue (ofBits32 0x3f800000#32) = 1 := by
  rw [show ofBits32 0x3f800000#32 = .fin false 8388608 (-23) by decide, fpValue_fin_false]
  norm_num

/-- Any other coordinate has an exact product of at most 1: its square is below n. -/
theorem tableEntry_mul_le_one (hi : i < nLut) (hk : 0 ≤ k) (hsq : k * k < tableNorm2 i) :
    fpValue (ofBits32 (tableEntry fmt i)) * k ≤ 1 := by
  obtain ⟨hlo, hhi⟩ := tableNorm2_bounds hi
  have hbound := (invSqrt_sq_mul_bounds fmt hlo hhi).2
  have hf := tableEntry_inRange fmt hi
  rw [← ofBits32_tableEntry fmt hi] at hbound
  have hge : (2 : ℚ) ^ (-7 : Int) ≤ fpValue (ofBits32 (tableEntry fmt i)) := hf.ge
  have hsqQ : (k : ℚ) ^ 2 + 1 ≤ tableNorm2 i := by
    rw [sq]; exact_mod_cast Int.add_one_le_of_lt hsq
  generalize fpValue (ofBits32 (tableEntry fmt i)) = f at *
  have hf0 : 0 ≤ f := (zpow_pos two_pos _).le.trans hge
  have hstep : (2 ^ (-7 : Int) : ℚ) ^ 2 ≤ f ^ 2 := pow_le_pow_left₀ (zpow_pos two_pos _).le hge 2
  have hmul := mul_le_mul_of_nonneg_left hsqQ (sq_nonneg f)
  refine (sq_le_one_iff₀ (mul_nonneg hf0 (Int.cast_nonneg hk))).1 ?_
  calc (f * k) ^ 2 = f ^ 2 * (k ^ 2 + 1) - f ^ 2 := by ring
    _ ≤ (1 + 6 / 2 ^ 23) ^ 2 - (2 ^ (-7 : Int)) ^ 2 := sub_le_sub (hmul.trans hbound) hstep
    _ ≤ 1 := by norm_num

/-- The product with a positive coordinate: one rounding of a number that is well above the subnormals. -/
theorem unitComponent_fmul32_of_pos (hi : i < nLut) (hk : IndexCoord (tableNorm2 i) k) (hpos : 0 < k) :
    UnitComponent (fpValue (ofBits32 (tableEntry fmt i)) * k) (fmul32 (tableEntry fmt i) (i2f32 k)) := by
  obtain ⟨-, hfin, hge, hle⟩ := tableEntry_inRange fmt hi
  obtain ⟨-, hk127, hsq⟩ := hk
  have hround := fmul32_i2f32_roundsTo hfin (k := k) (abs_le.2 ⟨by omega, by omega⟩)
  have hk1Q : (1 : ℚ) ≤ k := by exact_mod_cast hpos
  have hk127Q : (k : ℚ) ≤ 127 := by exact_mod_cast hk127
  have hqlo : (2 : ℚ) ^ (-7 : Int) ≤ fpValue (ofBits32 (tableEntry fmt i)) * k :=
    hge.trans (le_mul_of_one_le_right ((zpow_pos two_pos _).le.trans hge) hk1Q)
  have hqhi : fpValue (ofBits32 (tableEntry fmt i)) * k ≤ 2 ^ (1 : Int) :=
    (mul_le_mul hle hk127Q (by linarith) (by norm_num)).trans (by norm_num)
  obtain ⟨-, hpfin, hpge, -⟩ := hround.inRange (representable_two_zpow (by decide) (by decide))
    (representable_two_zpow (by decide) (by decide)) hqlo hqhi
  refine .of_error hpfin ((zpow_pos two_pos _).le.trans hpge) ?_ ((zpow_pos two_pos _).le.trans hqlo)
    (hround.error_le .binary32 hpfin (le_trans (by norm_num) hqlo))
  obtain ⟨rfl, hn⟩ | hlt := hsq
  · rw [fmul32_tableEntry_of_norm2_eq fmt hi hn, fpValue_one]
  · have hone : Representable binary32 1 := ⟨_, ofBits32_canonical 0x3f800000#32, by decide, fpValue_one⟩
    exact hround.le_of_representable hpfin hone (tableEntry_mul_le_one fmt hi hpos.le hlt)

/-- The product of an entry with a coordinate of its index, by the sign of the coordinate. -/
theorem unitComponent_fmul32 (hi : i < nLut) (hk : IndexCoord (tableNorm2 i) k) :
    UnitComponent (fpValue (ofBits32 (tableEntry fmt i)) * k) (fmul32 (tableEntry fmt i) (i2f32 k)) := by
  obtain ⟨-, hfin, hge, hle⟩ := tableEntry_inRange fmt hi
  have hpos := (zpow_pos two_pos _).trans_le hge
  have hcases : k = -1 ∨ k = 0 ∨ 0 < k := by have := hk.ge; omega
  obtain rfl | rfl | hk0 := hcases
  · have hself : UnitComponent (fpValue (ofBits32 (tableEntry fmt i))) (tableEntry fmt i) :=
      .of_error hfin hpos.le (hle.trans (by norm_num)) hpos.le (by rw [sub_self, abs_zero]; positivity)
    rw [fmul32_i2f32_neg_one hpos, Int.cast_neg, Int.cast_one, mul_neg_one]
    exact (hself.applySign true).neg
  · have hzero : fpValue (ofBits32 0x00000000#32) = 0 := fpValue_fin_zero false (-149)
    rw [fmul32_i2f32_zero hpos, Int.cast_zero, mul_zero]
    exact .of_error rfl hzero.ge (hzero.trans_le zero_le_one) le_rfl (by rw [hzero]; simp)
  · exact unitComponent_fmul32_of_pos fmt hi hk hk0

/-! ## The norm -/

/-- The exact products' squares add up to the factor's square times n. -/
theorem sum_sq_mul_tableCoords (f : ℚ) (i : Nat) :
    (f * (tableCoords i).xb) ^ 2 + (f * (tableCoords i).yb) ^ 2 + (f * (tableCoords i).zb) ^ 2 = f ^ 2 * tableNorm2 i := by
  have hn : ((tableNorm2 i : Int) : ℚ) = (tableCoords i).xb * (tableCoords i).xb + (tableCoords i).yb * (tableCoords i).yb +
      (tableCoords i).zb * (tableCoords i).zb := by rw [tableNorm2_cast]; push_cast; rfl
  rw [← Int.cast_natCast (R := ℚ) (tableNorm2 i), hn]
  ring

end

/-- The three components of a decoded vector. -/
theorem unitComponent_unpackWith (fmt : ArithFormat) (c : Code) :
    let i := (mindex c).toNat
    let f := fpValue (ofBits32 (tableEntry fmt i))
    UnitComponent (f * (tableCoords i).xb) (unpackWith (tableFn fmt) c).x ∧
      UnitComponent (f * (tableCoords i).yb) (unpackWith (tableFn fmt) c).y ∧
      UnitComponent (f * (tableCoords i).zb) (unpackWith (tableFn fmt) c).z := by
  have hi : (mindex c).toNat < nLut := (mindex c).isLt
  obtain ⟨hx, hy, hz⟩ := indexCoord_tableCoords hi
  rw [unpackWith_eq]
  exact ⟨(unitComponent_fmul32 fmt hi hx).applySign _, (unitComponent_fmul32 fmt hi hy).applySign _,
    (unitComponent_fmul32 fmt hi hz).applySign _⟩

/-- Settles O23: each component is its exact product but for one relative error, and the exact products' squares add up to 1 but
for the three relative errors of the factor. -/
theorem decodedVectorsAreUnitVectors : Obligations.DecodedVectorsAreUnitVectors := by
  intro fmt c v
  have hi : (mindex c).toNat < nLut := (mindex c).isLt
  obtain ⟨hlo, hhi⟩ := tableNorm2_bounds hi
  obtain ⟨hge, hle⟩ := invSqrt_sq_mul_bounds fmt hlo hhi
  rw [← ofBits32_tableEntry fmt hi, ← sum_sq_mul_tableCoords] at hge hle
  obtain ⟨hx, hy, hz⟩ := unitComponent_unpackWith fmt c
  obtain ⟨hxge, hxle⟩ := hx.sq_bounds
  obtain ⟨hyge, hyle⟩ := hy.sq_bounds
  obtain ⟨hzge, hzle⟩ := hz.sq_bounds
  exact ⟨hx.finite, hy.finite, hz.finite, hx.abs_le_one, hy.abs_le_one, hz.abs_le_one, by linarith, by linarith⟩

end Sys2Proof.Machine
end

section
/-! SUPPORT. What a step does by the event that comes next, and the settled statements about the construction fault: it is never
raised, and a block that records it is stuck until reset (60_exceptions.md R152, R153, R156, R157, R164). -/

namespace Sys2Proof.Machine

/-! ## The step by what comes next -/

/-- With nothing offered the step is the guard alone (60_exceptions.md R164). -/
theorem step_of_nil {s : State} (h : s.inputs = []) : step s = whenReady s s := by
  simp only [step, h]

/-- A reset event that comes next is taken in every state, whether or not it cuts a command (70_reset_and_hazards.md R170,
R179). -/
theorem step_of_resetEvent {s : State} {w : Request} {rest : List HostEvent}
    (h : s.inputs = .reset :: rest ∨ s.inputs = .resetDuring w :: rest) :
    step s = .next (resetBlock (setInputs rest s)) := by
  rcases h with h | h <;> simp only [step, h]

/-! ## The stuck block -/

/-- A stuck block performs no command (60_exceptions.md R153): each begins with the guard. -/
theorem exec_of_stuck {s : State} {r : Fault} (h : s.fault = some r) (i : Instr) : exec i s = .fault r := by
  cases i with
  | pack x y z => exact whenReady_of_stuck _ h
  | unpack c => exact whenReady_of_stuck _ h
  | buildLut => exact whenReady_of_stuck _ h
  | lutRead c => exact whenReady_of_stuck _ h

/-- With a request next the step of a stuck block is its fault, and the request is not performed (60_exceptions.md R153). -/
theorem step_of_request_of_stuck {s : State} {r : Fault} {w : Request} {rest : List HostEvent} (h : s.fault = some r)
    (hin : s.inputs = .request w :: rest) : step s = .fault r := by
  rw [step_of_request hin]
  exact exec_of_stuck ((setInputs_fault rest s).trans h) (decode w)

/-- A stuck block leaves its state by a reset event alone (60_exceptions.md R157): idle, or with a request next, it gives no next
state. -/
theorem step_next_of_stuck {s t : State} {r : Fault} (h : s.fault = some r) (hstep : step s = .next t) :
    t.fault = none ∧ ∃ rest w, s.inputs = .reset :: rest ∨ s.inputs = .resetDuring w :: rest := by
  obtain ⟨-, hf, -⟩ | ⟨rest, hin, rfl⟩ | ⟨w, rest, hin, rfl⟩ | ⟨w, rest, hin, -⟩ := step_cases hstep
  · simp [h] at hf
  · exact ⟨resetBlock_fault _, rest, 0, .inl hin⟩
  · exact ⟨resetBlock_fault _, rest, w, .inr hin⟩
  · simp [step_of_request_of_stuck h hin] at hstep

/-! ## The settled statements -/

/-- Settles O14: the entries are in range, so that no build faults, and the step performs the next event as the stateless codec
does. -/
theorem theConstructionFaultIsNeverRaised : Obligations.TheConstructionFaultIsNeverRaised := by
  refine ⟨fun fmt _ hi => entryOk_tableEntry fmt hi, fun s h hs => ?_⟩
  obtain ⟨t, hstep, ht⟩ := step_reaches h hs
  exact ⟨t, hstep, ht.inv, ht.safe⟩

/-- Settles O5: the guard of a block that is not stuck passes, and the idle step ends where it began. -/
theorem idleBlockKeepsItsState : Obligations.IdleBlockKeepsItsState := by
  intro s hin hs
  rw [step_of_nil hin, whenReady_of_ready s hs]

/-- Settles O7, by what is offered next: the guard stops an idle step and a command, and a reset event has no guard. -/
theorem onlyResetLeavesTheFaultedState : Obligations.OnlyResetLeavesTheFaultedState := by
  intro s r h
  refine ⟨exec_of_stuck h, fun t => step_next_of_stuck h, fun rest w hin => ?_, fun rest w hin => ?_⟩
  · exact ⟨_, step_of_resetEvent hin, resetBlock_fault _⟩
  · rcases hin with hin | hin
    · rw [step_of_nil hin, whenReady_of_stuck s h]
    · exact step_of_request_of_stuck h hin

/-- Settles O8: the field-by-field laws of raising a fault. -/
theorem raisingTheFaultSavesOnlyTheReason : Obligations.RaisingTheFaultSavesOnlyTheReason := fun r s =>
  ⟨raiseFault_fault r s, raiseFault_lutValid r s, raiseFault_lut r s, raiseFault_responses r s, raiseFault_inputs r s,
    raiseFault_params r s, raiseFault_resets r s⟩

end Sys2Proof.Machine
end

section
/-! SUPPORT. The observation of a run through its events, and the settled statements about reset: what it does to the block, and
which runs it leaves observed (70_reset_and_hazards.md R170, R178, R179). -/

namespace Sys2Proof.Machine

/-! ## What a reset event leaves -/

/-- Settles O10: a reset event has no guard, and the fields are those of the state of R170. -/
theorem resetInvalidatesTheTableAndClearsTheFault : Obligations.ResetInvalidatesTheTableAndClearsTheFault :=
  fun s rest _ hin => ⟨_, step_of_resetEvent hin, resetBlock_lutValid _, resetBlock_fault _,
    (resetBlock_responses _).trans (setInputs_responses rest s), (resetBlock_params _).trans (setInputs_params rest s)⟩

/-! ## Runs as they are observed -/

/-- What the stateless codec answers to the requests of a program, in order. -/
def programResponses (params : Params) (p : Program) : List Response := p.map fun w => responseOf params (decode w)

@[simp] theorem length_programResponses (params : Params) (p : Program) : (programResponses params p).length = p.length :=
  List.length_map _

/-- A run in which every command has responded is observed, with the responses delivered since it began. -/
theorem Reaches.closeRun_eq {s t : State} {out : List Response} {rest : List HostEvent} (h : Reaches s out rest t) :
    closeRun s.responses.length out.length t = some { responses := out, final := finalState t } := by
  rw [closeRun_eq_some_iff, h.responses]
  exact ⟨⟨List.length_append, h.safe⟩, by rw [List.drop_left]⟩

/-- A run in which one command has not responded is not observed. -/
theorem Reaches.closeRun_of_cut {s t : State} {out : List Response} {rest : List HostEvent} (h : Reaches s out rest t) :
    closeRun s.responses.length (out.length + 1) t = none :=
  closeRun_of_missing_response (by rw [h.responses, List.length_append]; omega)

/-- A request that is performed counts as one more command issued. -/
theorem observeFrom_request {s t : State} {w : Request} (hstep : step (setInputs [.request w] s) = .next t)
    (before issued : Nat) (evs : List HostEvent) :
    observeFrom before issued s (.request w :: evs) = observeFrom before (issued + 1) t evs := by
  simp only [observeFrom, hstep]

/-- A program of a block that meets the invariant and is not stuck is performed as the stateless codec does, and the run goes on
with whatever is offered behind it. -/
theorem observeFrom_program (p : Program) (before issued : Nat) {s : State} (h : Inv s) (hs : Safe s)
    (hin : s.inputs = []) :
    ∃ t, Reaches s (programResponses s.params p) [] t ∧ ∀ evs,
      observeFrom before issued s (p.map .request ++ evs) = observeFrom before (issued + p.length) t evs := by
  induction p generalizing s issued with
  | nil => exact ⟨s, hin ▸ Reaches.refl h hs, fun _ => rfl⟩
  | cons w p ih =>
    have hstep := (step_of_request (setInputs_inputs [.request w] s)).trans (exec_of_inv (h.setInputs []) hs (decode w))
    have ht := reaches_afterCommand h hs [] (responseOf s.params (decode w)) (decode w)
    obtain ⟨u, hu, hrest⟩ := ih (issued + 1) ht.inv ht.safe ht.inputs
    rw [ht.params] at hu
    refine ⟨u, ht.trans hu, fun evs => ?_⟩
    rw [List.length_cons, Nat.add_comm p.length 1, ← Nat.add_assoc, ← hrest evs]
    exact observeFrom_request hstep before issued _

/-- A run that a reset begins, with a program and nothing behind it, is observed with all its responses. -/
theorem observeFrom_resetBlock_program (q : Program) (s : State) :
    ∃ final, observeFrom s.responses.length 0 (resetBlock (setInputs [] s)) (q.map .request) =
      [some { responses := programResponses s.params q, final := final }] := by
  have hreset := reaches_resetBlock s []
  obtain ⟨t, ht, hrun⟩ := observeFrom_program q s.responses.length 0 hreset.inv hreset.safe hreset.inputs
  refine ⟨finalState t, ?_⟩
  calc observeFrom s.responses.length 0 (resetBlock (setInputs [] s)) (q.map .request)
    _ = observeFrom s.responses.length (0 + q.length) t [] := by rw [← hrun, List.append_nil]
    _ = [closeRun s.responses.length (programResponses s.params q).length t] := by
      rw [Nat.zero_add, length_programResponses]; rfl
    _ = [some { responses := programResponses s.params q, final := finalState t }] :=
      congrArg (fun run => [run]) ht.closeRun_eq

/-- Settles O51: at the reset the first program has delivered its responses, none of them for a command that is cut; the run after
it begins in the state of reset. -/
theorem aRunCutByResetHasNotEnded : Obligations.ARunCutByResetHasNotEnded := by
  intro params p q w
  obtain ⟨hinv, hsafe⟩ := resetMeetsTheInvariant params
  obtain ⟨t, ht, hfirst⟩ := observeFrom_program p 0 0 hinv hsafe rfl
  obtain ⟨final, hlast⟩ := observeFrom_resetBlock_program q t
  rw [ht.params] at hlast
  have hlen : (programResponses params p).length = 0 + p.length := by simp
  have hcut : closeRun 0 (0 + p.length + 1) t = none := hlen ▸ ht.closeRun_of_cut
  have hended : closeRun 0 (0 + p.length) t = some { responses := programResponses params p, final := finalState t } :=
    hlen ▸ ht.closeRun_eq
  constructor
  · exact ⟨final, by rw [observeRuns, hfirst, observeFrom_resetDuring, hcut, hlast]; rfl⟩
  · exact ⟨finalState t, final, by rw [observeRuns, hfirst, observeFrom_reset, hended, hlast]; rfl⟩

end Sys2Proof.Machine
end

section
/-! SUPPORT. The settled statement about what a reset leaves of the table and of the events: the model's choice (logs 3, 4 and
6). -/

namespace Sys2Proof.Machine

/-- Where no entry has been written, none can be read. -/
@[simp] theorem Memory.read_nil (i : Nat) : Memory.read [] i = none := rfl

/-- After a reset no entry is listed, whatever the table held. -/
theorem read_lut_resetBlock (s : State) (i : Nat) : (resetBlock s).lut.read i = none := by
  rw [resetBlock_lut, Memory.read_nil]

/-- Settles O11: a reset event has no guard, and what it leaves are the empty table, the events behind it and the count of
resets raised by one. -/
theorem resetForgetsTheTableAndCountsItself : Obligations.ResetForgetsTheTableAndCountsItself := by
  intro s rest w hin
  refine ⟨resetBlock (setInputs rest s), step_of_resetEvent hin, read_lut_resetBlock _, ?_, ?_⟩
  · rw [resetBlock_inputs, setInputs_inputs]
  · rw [resetBlock_resets, setInputs_resets]

end Sys2Proof.Machine
end
